-- ==== Sys2Proof/Word.lean ====
section
/-! DEFINITION. The word types of the interfaces (spec/30_encoding.md R90, spec/20_memory.md R61): bytes and
7-bit bus addresses are the only quantities the spec treats as bits beside the codes of R98 to R100. Lengths,
indices and host memory addresses are naturals with range invariants (92_eei_decisions.md D4). -/

namespace Sys2Proof

/-- The unit of every access (R61) and the width of the status word (R91). -/
abbrev Byte := BitVec 8

/-- A device address on the bus (R21, R60). -/
abbrev BusAddr := BitVec 7

end Sys2Proof
end

