-- ==== Sys2Proof/Syntax.lean ====
section
/-! DEFINITION. The whole syntax: the alphabets that cross the interfaces of CORE (spec/30_encoding.md R90 to
R101) and `Instr`, one constructor per row of spec/opcode_table.json. -/

namespace Sys2Proof

/-- The direction tag (R22): SEND stores write, RECEIVE stores read. -/
inductive Dir where
  | write
  | read
  deriving DecidableEq, Repr

/-- The bus commands of format CMD3 (R98). -/
inductive Cmd where
  | start
  | stop
  | ack
  | nack
  | release
  | reset
  deriving DecidableEq, Repr

/-- The result codes of format RES3 (R99, R230). -/
inductive ResCode where
  | ok
  | notFound
  | rejected
  | aborted
  | busy
  | badParameter
  | unknown
  | accepted
  deriving DecidableEq, Repr

/-- The actions of format ACT (R100). -/
inductive Action where
  | sessionStart
  | bcastSessionStart
  | data
  | sessionEnd
  | moreRequested
  deriving DecidableEq, Repr

/-- `sel` of format ACT (R100): which of the two handlers is called. -/
inductive HandlerSel where
  | rx
  | tx
  deriving DecidableEq, Repr

/-- A host request as it stands on the HOST interface: the 9-bit header of R95 and the operands of R96.
`len` is a number of any size (R96: never truncated). -/
structure RawReq where
  header : BitVec 9
  len : Nat
  ptr : Nat
  cbRef : Nat
  deriving DecidableEq, Repr

/-- What the decoder is given: a status word from the bus engine or a request from the host (R90). -/
inductive RawWord where
  | status (w : Byte)
  | request (r : RawReq)
  deriving DecidableEq, Repr

/-- The slave registration record, format CFGREC (R101). -/
structure CfgRec where
  present : Bool
  ownAddr : BusAddr
  bcast : Bool
  rxValid : Bool
  rxRef : Nat
  txValid : Bool
  txRef : Nat
  deriving DecidableEq, Repr

/-- The event alphabet of R94: exactly twenty events. -/
inductive Event where
  | start
  | repStart
  | mtSlaAck
  | mtSlaNack
  | mtDataAck
  | mtDataNack
  | arbLost
  | mrSlaAck
  | mrSlaNack
  | mrDataAck
  | mrDataNack
  | srSlaAck
  | srGcallAck
  | srData
  | srStop
  | stSlaAck
  | stDataAck
  | stLastAck
  | stDataNack
  | other
  deriving DecidableEq, Repr

/-- The instructions: one constructor per row of spec/opcode_table.json, in the table's order. Where several
rows carry one mnemonic the constructor's name ends in the row's match value (log 12). -/
inductive Instr where
  | other00
  | start
  | repStart
  | mtSlaAck
  | mtSlaNack
  | mtDataAck
  | mtDataNack
  | arbLost
  | mrSlaAck
  | mrSlaNack
  | mrDataAck
  | mrDataNack
  | srSlaAck
  | other68
  | srGcallAck
  | other78
  | srData80
  | other88
  | srData90
  | other98
  | srStop
  | stSlaAck
  | otherB0
  | stDataAck
  | stDataNack
  | stLastAck
  | otherD0
  | otherD8
  | otherE0
  | otherE8
  | otherF0
  | otherF8
  /-- SEND (R121): `cb` and `addr` from the header, then `len`, `src`, `cb_ref`. -/
  | send (cb : Bool) (addr : BusAddr) (len src cbRef : Nat)
  /-- RECEIVE (R122): `cb` and `addr` from the header, then `len`, `dst`, `cb_ref`. -/
  | receive (cb : Bool) (addr : BusAddr) (len dst cbRef : Nat)
  deriving DecidableEq, Repr

end Sys2Proof
end

