-- ==== Sys2Proof/Config.lean ====
section
/-! DEFINITION. The implementation parameters of spec/00_scope.md R7 and the one free value of the model.
The parameters are plain data carried in `State.cfg`, so that a statement about every state holds for every
value of them (log 2). -/

namespace Sys2Proof

/-- R7. `LEN_W` and `TRIES_W` are derived (Machine/Operands.lean); whether a slave is present is CONFIG's
(`State.srt`). -/
structure Config where
  /-- `BUF_CAP`: capacity of the outgoing buffer and upper bound of `len`. -/
  bufCap : Nat
  /-- `MAX_TRIES`: the retry budget set at acceptance. -/
  maxTries : Nat
  /-- `ADDR_W`: width of a host memory address. -/
  addrW : Nat
  /-- `CB_W`: width of an opaque callback or handler reference. -/
  cbW : Nat
  /-- `START_STICKY` (spec/44_bus_conditions.md R218): read by the engine's part of the model only. -/
  startSticky : Bool
  /-- `STATUS_DECODE` (spec/92_eei_decisions.md D5): from `w & 0xF8` to the event. A value without a row is OTHER
  (spec/30_encoding.md R93), so every table is total on the 256 status words. -/
  statusDecode : List (Byte × Event)
  deriving DecidableEq, Repr

/-- FREE VALUE (log 11): what `desc.buf[i]` yields for an index `i >= BUF_CAP`, an element the buffer does not
have (R23). Only descriptor fields left unspecified by a reset can lead there (R39, R153). -/
opaque Config.strayBufByte : Nat → Byte

end Sys2Proof
end

