-- ==== Sys2Proof/WellFormed.lean ====
section
/-! DEFINITION. The checks: which parameter records are legal (spec/00_scope.md R7) and which operands fit the
interfaces (spec/30_encoding.md R96, R101). Status events carry no operand, so every one is well formed. -/

namespace Sys2Proof

/-- A decode table: every row's value is some `w & 0xF8` (R91) and no two rows overlap (R92). -/
def tableWf (rows : List (Byte × Event)) : Bool :=
  rows.all (fun row => row.1 &&& 0x07 = 0) && decide (rows.map Prod.fst).Nodup

/-- The constraints of R7: `BUF_CAP`, `MAX_TRIES` and `ADDR_W` are at least 1, `CB_W` at least 0, and
`STATUS_DECODE` gives each status word one event. -/
def Config.wf (c : Config) : Bool :=
  1 ≤ c.bufCap && 1 ≤ c.maxTries && 1 ≤ c.addrW && tableWf c.statusDecode

/-- A host memory address of `ADDR_W` bits (R96). -/
def Config.addrFits (c : Config) (a : Nat) : Bool := a < 2 ^ c.addrW

/-- An opaque reference of `CB_W` bits (R96, R101). -/
def Config.refFits (c : Config) (r : Nat) : Bool := r < 2 ^ c.cbW

/-- The instruction's operands fit the widths of R96. `len` has no bound: a value above `BUF_CAP`, however
large, is presented and refused by the acceptance check (R96, R120). -/
def Instr.wf (c : Config) : Instr → Bool
  | .send _ _ _ src ref => c.addrFits src && c.refFits ref
  | .receive _ _ _ dst ref => c.addrFits dst && c.refFits ref
  | .other00 | .start | .repStart | .mtSlaAck | .mtSlaNack | .mtDataAck | .mtDataNack | .arbLost
  | .mrSlaAck | .mrSlaNack | .mrDataAck | .mrDataNack | .srSlaAck | .other68 | .srGcallAck | .other78
  | .srData80 | .other88 | .srData90 | .other98 | .srStop | .stSlaAck | .otherB0 | .stDataAck
  | .stDataNack | .stLastAck | .otherD0 | .otherD8 | .otherE0 | .otherE8 | .otherF0 | .otherF8 => true

/-- The references of a registration record fit `CB_W` bits (R101). -/
def CfgRec.wf (c : Config) (r : CfgRec) : Bool := c.refFits r.rxRef && c.refFits r.txRef

end Sys2Proof
end

