-- ==== Sys2Proof/Decode.lean ====
section
/-! DEFINITION. The encodings of spec/30_encoding.md: the decoder (total, R91 to R93, R95), then the encoder
written from the same tables, and the codes of R97 to R100. The numbers are PRESUMED by the spec itself, general
knowledge of the AVR two-wire interface (R92, log 12); those of the status word are the default of the parameter
`STATUS_DECODE` (R7, 92_eei_decisions.md D5). -/

namespace Sys2Proof

/-- Why an operand cannot stand on the interface it is given on. -/
inductive DecodeError where
  /-- `ptr` has more than `ADDR_W` bits (R96). -/
  | pointerTooWide
  /-- `cb_ref`, `rx_ref` or `tx_ref` has more than `CB_W` bits (R96, R101). -/
  | referenceTooWide
  deriving DecidableEq, Repr

/-- The status code: bits 2 to 0 are ignored (R91). -/
def statusCode (w : Byte) : Byte := w &&& 0xF8

/-- `STATUS_DECODE` as R92 gives it, the default of the parameter. -/
def statusTable : List (Byte × Event) :=
  [(0x00, .other), (0x08, .start), (0x10, .repStart), (0x18, .mtSlaAck), (0x20, .mtSlaNack), (0x28, .mtDataAck),
    (0x30, .mtDataNack), (0x38, .arbLost)] ++
  [(0x40, .mrSlaAck), (0x48, .mrSlaNack), (0x50, .mrDataAck), (0x58, .mrDataNack), (0x60, .srSlaAck), (0x68, .other),
    (0x70, .srGcallAck), (0x78, .other)] ++
  [(0x80, .srData), (0x88, .other), (0x90, .srData), (0x98, .other), (0xA0, .srStop), (0xA8, .stSlaAck),
    (0xB0, .other), (0xB8, .stDataAck)] ++
  [(0xC0, .stDataNack), (0xC8, .stLastAck), (0xD0, .other), (0xD8, .other), (0xE0, .other), (0xE8, .other),
    (0xF0, .other), (0xF8, .other)]

/-- The test configuration T0 (92_eei_decisions.md D40) with the default table of R92, the value `State.reset`
carries. DESIGN CHOICE (log 2): the spec leaves every one of these parameters open. -/
def Config.t0 : Config :=
  { bufCap := 8, maxTries := 3, addrW := 16, cbW := 8, startSticky := true, statusDecode := statusTable }

/-- The event a table gives the value `code`; a value without a row is OTHER (R93). -/
def tableEvent : List (Byte × Event) → Byte → Event
  | [], _ => .other
  | (k, e) :: rest, code => if k = code then e else tableEvent rest code

/-- `STATUS_DECODE` on a status word (R7, R91): `w & 0xF8` looked up in the table. -/
def statusEvent (c : Config) (w : Byte) : Event := tableEvent c.statusDecode (statusCode w)

/-- The row of spec/opcode_table.json that stands for an event. OTHER and SR_DATA have several rows of one meaning:
the word's own row is taken, and 0xF8 or 0x80 for a word whose own row is another event's (log 12). -/
def eventRow (e : Event) (code : Byte) : Instr :=
  match e with
  | .start => .start
  | .repStart => .repStart
  | .mtSlaAck => .mtSlaAck
  | .mtSlaNack => .mtSlaNack
  | .mtDataAck => .mtDataAck
  | .mtDataNack => .mtDataNack
  | .arbLost => .arbLost
  | .mrSlaAck => .mrSlaAck
  | .mrSlaNack => .mrSlaNack
  | .mrDataAck => .mrDataAck
  | .mrDataNack => .mrDataNack
  | .srSlaAck => .srSlaAck
  | .srGcallAck => .srGcallAck
  | .srData => if code = 0x90 then .srData90 else .srData80
  | .srStop => .srStop
  | .stSlaAck => .stSlaAck
  | .stDataAck => .stDataAck
  | .stLastAck => .stLastAck
  | .stDataNack => .stDataNack
  | .other =>
    match code.toNat with
    | 0x00 => .other00
    | 0x68 => .other68
    | 0x78 => .other78
    | 0x88 => .other88
    | 0x98 => .other98
    | 0xB0 => .otherB0
    | 0xD0 => .otherD0
    | 0xD8 => .otherD8
    | 0xE0 => .otherE0
    | 0xE8 => .otherE8
    | 0xF0 => .otherF0
    | _ => .otherF8

/-- The instruction a status word decodes to (R91, R92, R93). -/
def decodeStatus (c : Config) (w : Byte) : Instr := eventRow (statusEvent c w) (statusCode w)

/-- The event of R94 an instruction stands for; a host request is none. -/
def Instr.event : Instr → Option Event
  | .start => some .start
  | .repStart => some .repStart
  | .mtSlaAck => some .mtSlaAck
  | .mtSlaNack => some .mtSlaNack
  | .mtDataAck => some .mtDataAck
  | .mtDataNack => some .mtDataNack
  | .arbLost => some .arbLost
  | .mrSlaAck => some .mrSlaAck
  | .mrSlaNack => some .mrSlaNack
  | .mrDataAck => some .mrDataAck
  | .mrDataNack => some .mrDataNack
  | .srSlaAck => some .srSlaAck
  | .srGcallAck => some .srGcallAck
  | .srData80 | .srData90 => some .srData
  | .srStop => some .srStop
  | .stSlaAck => some .stSlaAck
  | .stDataAck => some .stDataAck
  | .stLastAck => some .stLastAck
  | .stDataNack => some .stDataNack
  | .other00 | .other68 | .other78 | .other88 | .other98 | .otherB0 | .otherD0 | .otherD8 | .otherE0
  | .otherE8 | .otherF0 | .otherF8 => some .other
  | .send .. | .receive .. => none

/-- The slave-class events of R94: the eight `SR_*` and `ST_*`. -/
def Event.slaveClass : Event → Bool
  | .srSlaAck | .srGcallAck | .srData | .srStop | .stSlaAck | .stDataAck | .stLastAck | .stDataNack => true
  | .start | .repStart | .mtSlaAck | .mtSlaNack | .mtDataAck | .mtDataNack | .arbLost | .mrSlaAck
  | .mrSlaNack | .mrDataAck | .mrDataNack | .other => false

/-- Header bit 0 (R95): 0 is SEND, 1 is RECEIVE. -/
def RawReq.dir (r : RawReq) : Dir := if r.header.getLsbD 0 then .read else .write

/-- Header bits 7 to 1 (R95). -/
def RawReq.addr (r : RawReq) : BusAddr := r.header.extractLsb' 1 7

/-- Header bit 8 (R95). -/
def RawReq.cb (r : RawReq) : Bool := r.header.getLsbD 8

/-- The host request a header and its operands stand for. All 512 headers are legal (R95). -/
def RawReq.toInstr (r : RawReq) : Instr :=
  match r.dir with
  | .write => .send r.cb r.addr r.len r.ptr r.cbRef
  | .read => .receive r.cb r.addr r.len r.ptr r.cbRef

/-- The decoder: total on every word of every interface. An operand wider than its interface is rejected by
name (log 13). -/
def decode (c : Config) : RawWord → Except DecodeError Instr
  | .status w => .ok (decodeStatus c w)
  | .request r =>
    if !c.addrFits r.ptr then .error .pointerTooWide
    else if !c.refFits r.cbRef then .error .referenceTooWide
    else .ok r.toInstr

/-- What the step does with a registration record before CONFIG runs: reject a reference that does not fit
(R101, log 13). -/
def CfgRec.decode (c : Config) (r : CfgRec) : Except DecodeError CfgRec :=
  if r.wf c then .ok r else .error .referenceTooWide

/-- The direction bit, 0 for write and 1 for read (R22, D12). -/
def Dir.bit : Dir → BitVec 1
  | .write => 0
  | .read => 1

/-- The request header `cb ++ addr ++ dir` (R95). -/
def requestHeader (cb : Bool) (addr : BusAddr) (dir : Dir) : BitVec 9 :=
  BitVec.ofBool cb ++ addr ++ dir.bit

/-- The encoder: the word of an instruction under the numbers of R92, its ignored status bits 0 (R91, R95). -/
def encode : Instr → RawWord
  | .other00 => .status 0x00
  | .start => .status 0x08
  | .repStart => .status 0x10
  | .mtSlaAck => .status 0x18
  | .mtSlaNack => .status 0x20
  | .mtDataAck => .status 0x28
  | .mtDataNack => .status 0x30
  | .arbLost => .status 0x38
  | .mrSlaAck => .status 0x40
  | .mrSlaNack => .status 0x48
  | .mrDataAck => .status 0x50
  | .mrDataNack => .status 0x58
  | .srSlaAck => .status 0x60
  | .other68 => .status 0x68
  | .srGcallAck => .status 0x70
  | .other78 => .status 0x78
  | .srData80 => .status 0x80
  | .other88 => .status 0x88
  | .srData90 => .status 0x90
  | .other98 => .status 0x98
  | .srStop => .status 0xA0
  | .stSlaAck => .status 0xA8
  | .otherB0 => .status 0xB0
  | .stDataAck => .status 0xB8
  | .stDataNack => .status 0xC0
  | .stLastAck => .status 0xC8
  | .otherD0 => .status 0xD0
  | .otherD8 => .status 0xD8
  | .otherE0 => .status 0xE0
  | .otherE8 => .status 0xE8
  | .otherF0 => .status 0xF0
  | .otherF8 => .status 0xF8
  | .send cb addr len src ref => .request ⟨requestHeader cb addr .write, len, src, ref⟩
  | .receive cb addr len dst ref => .request ⟨requestHeader cb addr .read, len, dst, ref⟩

/-- Format ADDRBYTE (R97): `addr ++ dir`. -/
def addrByte (addr : BusAddr) (dir : Dir) : Byte := addr ++ dir.bit

/-- The codes of format CMD3 (R98). Codes 0 and 7 belong to no command. -/
def Cmd.code : Cmd → BitVec 3
  | .start => 1
  | .stop => 2
  | .ack => 3
  | .nack => 4
  | .release => 5
  | .reset => 6

/-- The codes of format RES3 (R99). -/
def ResCode.code : ResCode → BitVec 3
  | .ok => 0
  | .notFound => 1
  | .rejected => 2
  | .aborted => 3
  | .busy => 4
  | .badParameter => 5
  | .unknown => 6
  | .accepted => 7

/-- The codes of format ACT (R100). Codes 5 to 7 belong to no action. -/
def Action.code : Action → BitVec 3
  | .sessionStart => 0
  | .bcastSessionStart => 1
  | .data => 2
  | .sessionEnd => 3
  | .moreRequested => 4

/-- `sel` of format ACT (R100). -/
def HandlerSel.bit : HandlerSel → BitVec 1
  | .rx => 0
  | .tx => 1

/-- The instruction the decoder reads from a word numbered as spec/opcode_table.json numbers it: an 8-bit row is
a status word, a longer row the 9-bit request header with operands of 0 (log 21). A number with bits above the
format's width is no word of it. -/
def decodeTableWord (nbits w : Nat) : Option Instr :=
  if nbits ≤ 8 then
    if w < 2 ^ 8 then some (decodeStatus Config.t0 (BitVec.ofNat 8 w)) else none
  else if w < 2 ^ 9 then
    match decode Config.t0 (.request ⟨BitVec.ofNat 9 w, 0, 0, 0⟩) with
    | .ok i => some i
    | .error _ => none
  else none

end Sys2Proof
end

