-- ==== Sys2Proof/Machine/State.lean ====
section
/-! DEFINITION. The state of the machine as plain data: all of spec/10_state.md R20, the registers of the bus
engine interface (R36), the engine's hidden state (R37), host memory, and what the environment has still to
send. INVENTORY.md lists every field with its rule and its reset value. -/

namespace Sys2Proof.Machine

/-- The Transaction Descriptor (R21 to R29). `dst`, `len`, `idx`, `tries`, `cbRef` are naturals with the range
invariants of R38 and the widths of R20 (log 3). -/
structure Desc where
  addr : BusAddr
  dir : Dir
  /-- `BUF_CAP` elements (R23). -/
  buf : List Byte
  dst : Nat
  len : Nat
  idx : Nat
  tries : Nat
  cbValid : Bool
  cbRef : Nat
  result : ResCode
  deriving DecidableEq, Repr

/-- The Slave Role Table (R33). -/
structure SlaveTable where
  enabled : Bool
  ownAddr : BusAddr
  bcast : Bool
  rxValid : Bool
  txValid : Bool
  rxRef : Nat
  txRef : Nat
  deriving DecidableEq, Repr

/-- The four registers of the bus engine interface (R36). -/
structure Bei where
  status : Byte
  input : Byte
  output : Byte
  /-- The code of R98 last written; 0 before the first command (log 6). -/
  cmd : BitVec 3
  deriving DecidableEq, Repr

/-- What a handler does during its call (R170, log 9): its answer, the byte it queues with `BusOut`, if any, and
the host requests it issues (R267, R275). -/
structure HandlerReply where
  accept : Bool
  out : Option Byte
  requests : List RawReq
  deriving DecidableEq, Repr

/-- What the environment answers during the present event step: the handler's reply and the requests the
completion callback issues if it is invoked (R128, log 10). -/
structure Env where
  reply : HandlerReply
  callback : List RawReq
  deriving DecidableEq, Repr

/-- One delivery of a status code by the bus engine, with what `BusIn()` returns and what the host code run
inside the step does (R103, R140). -/
structure BusEvent where
  status : Byte
  input : Byte
  reply : HandlerReply
  callback : List RawReq
  deriving DecidableEq, Repr

/-- The engine's role (R37(c), R216). `start pending` is `idle` with `pendingStart`. `off` is the engine before
the initialisation collaborator has set it up (R261), `restart` the master after an address no-acknowledge
answered with START, `addrQueued` the master with the address byte queued (log 16). -/
inductive EngineRole where
  | off
  | idle
  | restart
  | addrQueued
  | mt
  | mr
  | sr
  | st
  deriving DecidableEq, Repr

/-- The engine's state that CORE cannot read (R37, R216, R218): it serves the environment contract only. -/
structure Engine where
  role : EngineRole
  /-- The command last obeyed; `none` before the first, a value of the table of R216. -/
  last : Option Cmd
  pendingStart : Bool
  deriving DecidableEq, Repr

/-- What the host reads in a step of kind (5) (R8, R127, R237). -/
inductive ReadSel where
  | busy
  | result
  | desc
  deriving DecidableEq, Repr

/-- One stimulus of the environment (R8, R103). The last two are the environment's own and no step of CORE. -/
inductive Stimulus where
  | event (e : BusEvent)
  | request (r : RawReq)
  /-- The synchronous form of a request (R104). -/
  | callSync (r : RawReq)
  | config (r : CfgRec)
  /-- A reset step with the environment's draw for every field R260 leaves unspecified (U4, log 5). -/
  | reset (desc : Desc) (srt : SlaveTable)
  | hostRead (what : ReadSel)
  | wait
  /-- The host writes one byte of its memory (log 19). -/
  | hostWrite (addr : Nat) (v : Byte)
  /-- The initialisation collaborator sets the engine up (R261, logs 16 and 27). -/
  | engineInit
  deriving DecidableEq, Repr

/-- What a step puts on the interfaces of CORE, in the order of the rule (R9, R103). -/
inductive Output where
  | response (r : ResCode)
  | memRead (a : Nat)
  | memWrite (a : Nat) (v : Byte)
  | busOut (v : Byte)
  | busCmd (c : Cmd)
  | call (sel : HandlerSel) (ref : Nat) (a : Action)
  | done (r : ResCode) (ref : Nat)
  | readBusy (b : Bool)
  | readResult (r : ResCode)
  | readDesc (d : Desc)
  deriving DecidableEq, Repr

/-- Host memory: the listed bytes, addresses strictly rising, none equal to what an unlisted address reads as. -/
abbrev Memory := List Host.Cell

/-- Why the machine has no next step. Both are safe: the model stops where the spec gives no successor. -/
inductive Fault where
  /-- `step` with no stimulus left and `busy = 0`: CORE waits (R260). Safe. -/
  | awaitingStimulus
  /-- `step` with no stimulus left and `busy = 1`: the hang of R269 and U11, kept visible. Safe. -/
  | lockedUp
  deriving DecidableEq, Repr

/-- Why an input has no meaning. -/
inductive Refusal where
  /-- An instruction without a meaning; no arm of `exec` uses it. Safe. -/
  | notModelled (mnemonic : String)
  /-- `step` on a request or registration record whose `ptr` does not fit `ADDR_W` bits: no such word can stand
  on the interface (R96). Safe. -/
  | pointerTooWide
  /-- `step` on a request or registration record whose reference does not fit `CB_W` bits (R96, R101). Safe. -/
  | referenceTooWide
  /-- A slave event whose handler issues a request that the acceptance check lets through: R170 and R275 forbid it,
  and 93_implementation_defined.md U10 and U12 name the treatment `refuse` (log 9). Safe. -/
  | handlerRequestAccepted
  deriving DecidableEq, Repr

/-- The whole state. -/
structure State where
  /-- The parameters of R7; no step writes them (log 2). -/
  cfg : Config
  desc : Desc
  /-- The Busy Flag (R31). -/
  busy : Bool
  srt : SlaveTable
  bei : Bei
  mem : Memory
  env : Env
  eng : Engine
  /-- The stimuli still to come, the next one first (log 1). -/
  inputs : List Stimulus
  /-- The outputs of the last step, oldest first (log 8). -/
  outs : List Output
  /-- A request has been accepted since the last reset (R38(a), log 22). -/
  accepted : Bool
  /-- CONFIG and the set-up of the engine are still in time (R261, R272, logs 17 and 27). -/
  bootWindow : Bool
  /-- The trace has left the envelope of the spec (93 U3, log 15). -/
  leftContract : Bool
  deriving DecidableEq, Repr

/-- After reset: `busy`, `cb_valid`, `srt.enabled`, `bcast`, `rx_valid`, `tx_valid` are 0 (R39). Every other field
holds a value the model names, DESIGN CHOICE (logs 1, 2, 4, 6, 7, 9, 10, 16, 17, 22). -/
def State.reset : State :=
  { cfg := Config.t0
    desc :=
      { addr := 0, dir := .write, buf := List.replicate Config.t0.bufCap 0, dst := 0, len := 0, idx := 0,
        tries := 0, cbValid := false, cbRef := 0, result := .ok }
    busy := false
    srt :=
      { enabled := false, ownAddr := 0, bcast := false, rxValid := false, txValid := false, rxRef := 0,
        txRef := 0 }
    bei := { status := 0, input := 0, output := 0, cmd := 0 }
    mem := []
    env := { reply := { accept := false, out := none, requests := [] }, callback := [] }
    eng := { role := .off, last := none, pendingStart := false }
    inputs := []
    outs := []
    accepted := false
    bootWindow := true
    leftContract := false }

end Sys2Proof.Machine
end

