-- ==== Sys2Proof/Machine/Flags.lean ====
section
/-! DEFINITION. The conditions CORE computes (spec/43_gate_and_commands.md R203): there are no condition codes, so
these comparisons and the flags `busy` and `desc.cb_valid` are all the flag computations of this hardware. -/

namespace Sys2Proof.Machine

/-- `desc.idx < desc.len`: more bytes remain (R143, R144). -/
def moreRemain (d : Desc) : Bool := d.idx < d.len

/-- `desc.idx > 1`: a data byte was accepted before the refused one (R146). -/
def someAccepted (d : Desc) : Bool := 1 < d.idx

/-- `desc.len > 1`: more than one byte is wanted (R147). -/
def manyWanted (d : Desc) : Bool := 1 < d.len

/-- `desc.len - desc.idx <= 1`, read over the integers as `desc.idx + 1 >= desc.len` (R149, R203). -/
def lastByteNext (d : Desc) : Bool := d.len ≤ d.idx + 1

/-- `desc.dir = 1 and desc.idx < desc.len`: the store guard (R149, R150). -/
def mayStore (d : Desc) : Bool := d.dir = .read && d.idx < d.len

/-- `desc.tries > 0` (R145, R148). -/
def retriesRemain (d : Desc) : Bool := 0 < d.tries

/-- The acceptance check (R120): the first test that fails names the response; `none` means accepted. -/
def acceptCheck (busy : Bool) (bufCap : Nat) (dir : Dir) (addr : BusAddr) (len : Nat) : Option ResCode :=
  if busy then some .busy
  else if len = 0 then some .badParameter
  else if bufCap < len then some .badParameter
  else if dir = .read ∧ addr = 0 then some .badParameter
  else none

/-- The acceptance check of a request as it stands on the HOST interface. -/
def requestCheck (busy : Bool) (bufCap : Nat) (r : RawReq) : Option ResCode :=
  acceptCheck busy bufCap r.dir r.addr r.len

end Sys2Proof.Machine
end

