-- ==== Sys2Proof/Machine/Operands.lean ====
section
/-! DEFINITION. How operands are formed: the derived widths of spec/00_scope.md R7, host addresses modulo
2^ADDR_W (spec/20_memory.md R62), and the element of the outgoing buffer a transmit event sends (R23). -/

namespace Sys2Proof.Machine

/-- `LEN_W = ceil(log2(BUF_CAP + 1))` (R7): the number of bits of `BUF_CAP`. -/
def lenWidth (c : Config) : Nat := Nat.log2 c.bufCap + 1

/-- `TRIES_W = ceil(log2(MAX_TRIES + 1))` (R7): the number of bits of `MAX_TRIES`. -/
def triesWidth (c : Config) : Nat := Nat.log2 c.maxTries + 1

/-- `base + offset` modulo `2^ADDR_W` (R62, R203). -/
def hostAddr (c : Config) (base offset : Nat) : Nat := (base + offset) % 2 ^ c.addrW

/-- The host address of the next received byte, `desc.dst + desc.idx` (R68). -/
def storeAddr (s : State) : Nat := hostAddr s.cfg s.desc.dst s.desc.idx

/-- `desc.buf[i]` (R23). Past the buffer's end the value is free (log 11). -/
def bufByte (d : Desc) (i : Nat) : Byte := d.buf.getD i (Config.strayBufByte i)

/-- A buffer of exactly `BUF_CAP` bytes from a list of any length: the environment's draw at a reset step. -/
def fitBuffer (c : Config) (l : List Byte) : List Byte :=
  (l.take c.bufCap) ++ List.replicate (c.bufCap - l.length) 0

/-- A descriptor drawn at a reset step, cut to the widths of R20 and to the bound of R38(c) (log 5). -/
def fitDesc (c : Config) (d : Desc) : Desc :=
  { d with
    buf := fitBuffer c d.buf
    dst := d.dst % 2 ^ c.addrW
    len := d.len % 2 ^ lenWidth c
    idx := d.idx % 2 ^ lenWidth c
    tries := d.tries % (c.maxTries + 1)
    cbRef := d.cbRef % 2 ^ c.cbW }

/-- A slave table drawn at a reset step, its references cut to `CB_W` bits (log 5). -/
def fitTable (c : Config) (t : SlaveTable) : SlaveTable :=
  { t with rxRef := t.rxRef % 2 ^ c.cbW, txRef := t.txRef % 2 ^ c.cbW }

end Sys2Proof.Machine
end

