-- ==== Sys2Proof/Machine/Ops.lean ====
section
/-! DEFINITION. The named operations every meaning is made of: host memory, the primitives of the bus engine
interface (spec/43_gate_and_commands.md R193 to R200), the host request procedure (spec/40_host_requests.md R120
to R122), the gate `Deliver` (R190) and the handler calls (spec/42_slave_events.md R170, R179). CORE takes no
exception: dispatcher entry saves nothing and return restores nothing (spec/60_exceptions.md R234, R235), so
`Deliver` is the one shared operation that reports an error. -/

namespace Sys2Proof.Machine

/-! ### Host memory -/

/-- What an address reads as that the memory does not list. DESIGN CHOICE (log 7). -/
def Memory.unlisted : Byte := 0

/-- The byte at `a`. -/
def Memory.read : Memory → Nat → Byte
  | [], _ => Memory.unlisted
  | (k, v) :: rest, a => if k = a then v else Memory.read rest a

/-- One byte written; writing what an unlisted address reads as removes the entry. -/
def Memory.write : Memory → Nat → Byte → Memory
  | [], a, v => if v = Memory.unlisted then [] else [(a, v)]
  | (k, b) :: rest, a, v =>
    if a < k then (if v = Memory.unlisted then (k, b) :: rest else (a, v) :: (k, b) :: rest)
    else if a = k then (if v = Memory.unlisted then rest else (a, v) :: rest)
    else (k, b) :: Memory.write rest a v

/-- The canonical form: addresses strictly rising, no entry that an unlisted address would read as. -/
abbrev Memory.wf (m : Memory) : Prop :=
  List.Pairwise (fun x y : Host.Cell => x.1 < y.1) m ∧ ∀ x ∈ m, x.2 ≠ Memory.unlisted

/-- Every listed address has `ADDR_W` bits (R60). -/
abbrev Memory.inSpace (c : Config) (m : Memory) : Prop := ∀ x ∈ m, x.1 < 2 ^ c.addrW

/-! ### Outputs and registers -/

/-- Put one output on CORE's interfaces, after those of the step so far. -/
def emit (o : Output) (s : State) : State := { s with outs := s.outs ++ [o] }

/-- `BusOut(v)`: write-next-output-byte (R194). -/
def busOut (v : Byte) (s : State) : State :=
  emit (.busOut v) { s with bei := { s.bei with output := v } }

/-- `BusCmd(c)`: write the command register (R98, R193). -/
def busCmd (c : Cmd) (s : State) : State :=
  emit (.busCmd c) { s with bei := { s.bei with cmd := c.code } }

/-- `BusIn()`: read-last-input-byte (R66, R194). -/
def busIn (s : State) : Byte := s.bei.input

/-- `Respond(code)` (R11, R123): it stands on the HOST response only (R41). -/
def respond (r : ResCode) (s : State) : State := emit (.response r) s

/-- `Notify(r, ref)` (R232). -/
def notify (r : ResCode) (ref : Nat) (s : State) : State := emit (.done r ref) s

/-- `MemWrite(a, 1, v)` (R68). -/
def hmemWrite (a : Nat) (v : Byte) (s : State) : State :=
  emit (.memWrite a v) { s with mem := s.mem.write a v }

def setBusy (b : Bool) (s : State) : State := { s with busy := b }
def setDesc (d : Desc) (s : State) : State := { s with desc := d }
def setIdx (n : Nat) (s : State) : State := setDesc { s.desc with idx := n } s
def setTries (n : Nat) (s : State) : State := setDesc { s.desc with tries := n } s
def setCbValid (b : Bool) (s : State) : State := setDesc { s.desc with cbValid := b } s
def setResult (r : ResCode) (s : State) : State := setDesc { s.desc with result := r } s

/-! ### Host requests (R120 to R124) -/

/-- `desc.buf[i] <- MemRead(src + i, 1)` (R67, R121). -/
def copyByte (src i : Nat) (s : State) : State :=
  let a := hostAddr s.cfg src i
  let s1 := emit (.memRead a) s
  setDesc { s1.desc with buf := s1.desc.buf.set i (s1.mem.read a) } s1

/-- The copy loop of R121: `count` bytes from index `i` up, in ascending order (R67). -/
def copySource (src : Nat) : Nat → Nat → State → State
  | 0, _, s => s
  | count + 1, i, s => copySource src count (i + 1) (copyByte src i s)

/-- The end of an accept step (R121, R122, R263): `busy <- 1`, then START, then the response. `accepted` is the
model's own (log 22). -/
def armStart (s : State) : State :=
  respond .accepted (busCmd .start (setBusy true { s with accepted := true }))

/-- The accept step of SEND (R121). -/
def acceptSend (cb : Bool) (addr : BusAddr) (len src cbRef : Nat) (s : State) : State :=
  let s1 := copySource src len 0 s
  armStart (setDesc
    { s1.desc with
      addr := addr, dir := .write, len := len, idx := 0, tries := s1.cfg.maxTries, cbValid := cb,
      cbRef := cbRef } s1)

/-- The accept step of RECEIVE (R122): no access to host memory. -/
def acceptReceive (cb : Bool) (addr : BusAddr) (len dst cbRef : Nat) (s : State) : State :=
  armStart (setDesc
    { s.desc with
      addr := addr, dir := .read, dst := dst, len := len, idx := 0, tries := s.cfg.maxTries, cbValid := cb,
      cbRef := cbRef } s)

/-- A whole SEND request: the check of R120, then a refusal that changes nothing (R124) or the accept step. -/
def sendRequest (cb : Bool) (addr : BusAddr) (len src cbRef : Nat) (s : State) : State :=
  match acceptCheck s.busy s.cfg.bufCap .write addr len with
  | some code => respond code s
  | none => acceptSend cb addr len src cbRef s

/-- A whole RECEIVE request (R120, R122, R124). -/
def receiveRequest (cb : Bool) (addr : BusAddr) (len dst cbRef : Nat) (s : State) : State :=
  match acceptCheck s.busy s.cfg.bufCap .read addr len with
  | some code => respond code s
  | none => acceptReceive cb addr len dst cbRef s

/-- A request as it stands on the HOST interface, run by its direction bit. -/
def hostRequest (r : RawReq) (s : State) : State :=
  match r.dir with
  | .write => sendRequest r.cb r.addr r.len r.ptr r.cbRef s
  | .read => receiveRequest r.cb r.addr r.len r.ptr r.cbRef s

/-- The requests that host code issues from inside a step, one after another (R128, R267). -/
def hostRequests (l : List RawReq) (s : State) : State := l.foldl (fun t r => hostRequest r t) s

/-! ### The gate (R190) -/

/-- The completion callback runs inside the delivering step (R128, R232): the requests it issues are evaluated
one after another, `busy` still 1 (log 10). -/
def runCallback (s : State) : State := hostRequests s.env.callback s

/-- `Deliver(r)` (R190). -/
def deliver (r : ResCode) (s : State) : State :=
  if s.busy then
    if s.desc.cbValid then
      let s1 := setCbValid false s
      let s2 := notify r s1.desc.cbRef s1
      setBusy false (runCallback s2)
    else
      setBusy false (setResult r s)
  else s

/-! ### Slave handlers (R170, R179) -/

/-- The byte the handler queues during the call, if any (R170). -/
def handlerOut (s : State) : State :=
  match s.env.reply.out with
  | some v => busOut v s
  | none => s

/-- What the registered handler does during the call: it may queue a byte, and the requests it issues are answered
(R170, R267). DESIGN CHOICE (log 9): the byte first. -/
def handlerRuns (s : State) : State := hostRequests s.env.reply.requests (handlerOut s)

/-- Whether the handler is registered (spec/10_state.md R33). -/
def handlerValid (sel : HandlerSel) (s : State) : Bool :=
  match sel with
  | .rx => s.srt.rxValid
  | .tx => s.srt.txValid

/-- The registered handler issues a request that would be accepted, in the middle of the event step (R275). -/
def handlerStartsRequest (sel : HandlerSel) (s : State) : Bool :=
  handlerValid sel s && s.env.reply.requests.any fun r => (requestCheck s.busy s.cfg.bufCap r).isNone

/-- A slave rule from `s` to `t` that calls the handler `sel`. A handler that starts a transaction breaks R170 and
R275, and the model refuses it, the treatment U10 and U12 of 93_implementation_defined.md name. -/
def slaveRule (sel : HandlerSel) (s t : State) : Host.Outcome State Fault Refusal :=
  if handlerStartsRequest sel s then .refused .handlerRequestAccepted else .next t

/-- `CallRx(a)`: the answer and the state after the call. Without a registered handler there is no call and the
answer is REJECT (R179). -/
def callRx (a : Action) (s : State) : Bool × State :=
  if s.srt.rxValid then (s.env.reply.accept, handlerRuns (emit (.call .rx s.srt.rxRef a) s))
  else (false, s)

/-- `CallTx(a)`: the same for the transmit handler. -/
def callTx (a : Action) (s : State) : Bool × State :=
  if s.srt.txValid then (s.env.reply.accept, handlerRuns (emit (.call .tx s.srt.txRef a) s))
  else (false, s)

/-- ACK on ACCEPT, NACK on REJECT (R171, R172, R175, R176). -/
def answer (r : Bool × State) : State := if r.1 then busCmd .ack r.2 else busCmd .nack r.2

end Sys2Proof.Machine
end

