-- ==== Sys2Proof/Machine/CatchAll.lean ====
section
/-! DEFINITION. The catch-all OTHER (spec/41_master_events.md R152), one meaning per row of the table that decodes
to it (spec/30_encoding.md R92, R93). -/

namespace Sys2Proof.Machine

/-- Reset the bus to idle and deliver UNKNOWN (R152). With `busy = 0` the command is still issued (D39). -/
def catchAll (s : State) : State := deliver .unknown (busCmd .reset s)

/-- OTHER, status 0x00 (R152). -/
def execOther00 (s : State) : Host.Outcome State Fault Refusal := .next (catchAll s)

/-- OTHER, status 0x68 (R152). -/
def execOther68 (s : State) : Host.Outcome State Fault Refusal := .next (catchAll s)

/-- OTHER, status 0x78 (R152). -/
def execOther78 (s : State) : Host.Outcome State Fault Refusal := .next (catchAll s)

/-- OTHER, status 0x88 (R152). -/
def execOther88 (s : State) : Host.Outcome State Fault Refusal := .next (catchAll s)

/-- OTHER, status 0x98 (R152). -/
def execOther98 (s : State) : Host.Outcome State Fault Refusal := .next (catchAll s)

/-- OTHER, status 0xB0 (R152). -/
def execOtherB0 (s : State) : Host.Outcome State Fault Refusal := .next (catchAll s)

/-- OTHER, status 0xD0 (R152). -/
def execOtherD0 (s : State) : Host.Outcome State Fault Refusal := .next (catchAll s)

/-- OTHER, status 0xD8 (R152). -/
def execOtherD8 (s : State) : Host.Outcome State Fault Refusal := .next (catchAll s)

/-- OTHER, status 0xE0 (R152). -/
def execOtherE0 (s : State) : Host.Outcome State Fault Refusal := .next (catchAll s)

/-- OTHER, status 0xE8 (R152). -/
def execOtherE8 (s : State) : Host.Outcome State Fault Refusal := .next (catchAll s)

/-- OTHER, status 0xF0 (R152). -/
def execOtherF0 (s : State) : Host.Outcome State Fault Refusal := .next (catchAll s)

/-- OTHER, status 0xF8 (R152). -/
def execOtherF8 (s : State) : Host.Outcome State Fault Refusal := .next (catchAll s)

end Sys2Proof.Machine
end

