-- ==== Sys2Proof/Machine/HostRequest.lean ====
section
/-! DEFINITION. The meanings of the two host requests (spec/40_host_requests.md). -/

namespace Sys2Proof.Machine

/-- SEND (R121). -/
def execSend (cb : Bool) (addr : BusAddr) (len src cbRef : Nat) (s : State) :
    Host.Outcome State Fault Refusal :=
  .next (sendRequest cb addr len src cbRef s)

/-- RECEIVE (R122). -/
def execReceive (cb : Bool) (addr : BusAddr) (len dst cbRef : Nat) (s : State) :
    Host.Outcome State Fault Refusal :=
  .next (receiveRequest cb addr len dst cbRef s)

end Sys2Proof.Machine
end

