-- ==== Sys2Proof/Machine/Master.lean ====
section
/-! DEFINITION. The meanings of the master events (spec/41_master_events.md R141 to R151). Every rule is defined in
every state: none tests `busy` or the direction to decide whether it applies (R153). -/

namespace Sys2Proof.Machine

/-! ### Start conditions -/

/-- Send the address and direction byte, request acknowledge (R141, R142). -/
def sendAddress (s : State) : State := busCmd .ack (busOut (addrByte s.desc.addr s.desc.dir) s)

/-- START (R141). -/
def execStart (s : State) : Host.Outcome State Fault Refusal := .next (sendAddress s)

/-- REP_START (R142). -/
def execRepStart (s : State) : Host.Outcome State Fault Refusal := .next (sendAddress s)

/-! ### Master transmit -/

/-- Send the next byte of the buffer, or stop and deliver OK when none remains (R143, R144). -/
def sendNext (s : State) : State :=
  if moreRemain s.desc then
    busCmd .nack (setIdx (s.desc.idx + 1) (busOut (bufByte s.desc s.desc.idx) s))
  else
    deliver .ok (busCmd .stop s)

/-- MT_SLA_ACK (R143). -/
def execMtSlaAck (s : State) : Host.Outcome State Fault Refusal := .next (sendNext s)

/-- MT_DATA_ACK (R144). -/
def execMtDataAck (s : State) : Host.Outcome State Fault Refusal := .next (sendNext s)

/-- The saturating decrement of the retry budget (R27, R145). -/
def spendRetry (s : State) : State := if retriesRemain s.desc then setTries (s.desc.tries - 1) s else s

/-- The address was not acknowledged: restart while retries remain after the decrement, else stop and deliver
NOT_FOUND (R145, R148). -/
def addressRefused (s : State) : State :=
  let s1 := spendRetry s
  if retriesRemain s1.desc then busCmd .start s1 else deliver .notFound (busCmd .stop s1)

/-- MT_SLA_NACK (R145). -/
def execMtSlaNack (s : State) : Host.Outcome State Fault Refusal := .next (addressRefused s)

/-- MT_DATA_NACK (R146). -/
def execMtDataNack (s : State) : Host.Outcome State Fault Refusal :=
  let s1 := busCmd .stop s
  .next (if someAccepted s1.desc then deliver .aborted s1 else deliver .rejected s1)

/-! ### Master receive -/

/-- MR_SLA_ACK (R147). -/
def execMrSlaAck (s : State) : Host.Outcome State Fault Refusal :=
  .next (if manyWanted s.desc then busCmd .ack s else busCmd .nack s)

/-- MR_SLA_NACK (R148). -/
def execMrSlaNack (s : State) : Host.Outcome State Fault Refusal := .next (addressRefused s)

/-- Store the received byte in the destination buffer and count it, under the guard of R149 and R150. -/
def storeInput (s : State) : State :=
  if mayStore s.desc then setIdx (s.desc.idx + 1) (hmemWrite (storeAddr s) (busIn s) s) else s

/-- MR_DATA_ACK (R149). -/
def execMrDataAck (s : State) : Host.Outcome State Fault Refusal :=
  let s1 := storeInput s
  .next (if lastByteNext s1.desc then busCmd .nack s1 else busCmd .ack s1)

/-- MR_DATA_NACK (R150). -/
def execMrDataNack (s : State) : Host.Outcome State Fault Refusal :=
  .next (deliver .ok (busCmd .stop (storeInput s)))

/-! ### Arbitration loss -/

/-- ARB_LOST (R151): reissue the start, no retry spent, no cap (R268). -/
def execArbLost (s : State) : Host.Outcome State Fault Refusal := .next (busCmd .start s)

end Sys2Proof.Machine
end

