-- ==== Sys2Proof/Machine/Slave.lean ====
section
/-! DEFINITION. The meanings of the slave events (spec/42_slave_events.md R171 to R178). No slave rule reads or
writes `desc` or `busy`, delivers, or touches host memory (R180). -/

namespace Sys2Proof.Machine

/-- SR_SLA_ACK (R171). -/
def execSrSlaAck (s : State) : Host.Outcome State Fault Refusal :=
  slaveRule .rx s (answer (callRx .sessionStart s))

/-- SR_GCALL_ACK (R172). -/
def execSrGcallAck (s : State) : Host.Outcome State Fault Refusal :=
  slaveRule .rx s (answer (callRx .bcastSessionStart s))

/-- Inbound data: the answer is ignored, always ACK (R173). -/
def inboundData (s : State) : State := busCmd .ack (callRx .data s).2

/-- SR_DATA after a directed address, status 0x80 (R173). -/
def execSrData80 (s : State) : Host.Outcome State Fault Refusal :=
  slaveRule .rx s (inboundData s)

/-- SR_DATA after a broadcast, status 0x90 (R173). -/
def execSrData90 (s : State) : Host.Outcome State Fault Refusal :=
  slaveRule .rx s (inboundData s)

/-- SR_STOP (R174). -/
def execSrStop (s : State) : Host.Outcome State Fault Refusal :=
  slaveRule .rx s (busCmd .release (callRx .sessionEnd s).2)

/-- ST_SLA_ACK (R175). -/
def execStSlaAck (s : State) : Host.Outcome State Fault Refusal :=
  slaveRule .tx s (answer (callTx .sessionStart s))

/-- ST_DATA_ACK (R176). -/
def execStDataAck (s : State) : Host.Outcome State Fault Refusal :=
  slaveRule .tx s (answer (callTx .data s))

/-- ST_LAST_ACK (R177). -/
def execStLastAck (s : State) : Host.Outcome State Fault Refusal :=
  slaveRule .tx s (busCmd .release (callTx .moreRequested s).2)

/-- ST_DATA_NACK (R178). -/
def execStDataNack (s : State) : Host.Outcome State Fault Refusal :=
  slaveRule .tx s (busCmd .release (callTx .sessionEnd s).2)

end Sys2Proof.Machine
end

