-- ==== Sys2Proof/Machine/Dispatch.lean ====
section
/-! DEFINITION. The dispatcher's choice of rule (spec/41_master_events.md R140): one arm per row of the opcode
table, each a direct call of the row's meaning. -/

namespace Sys2Proof.Machine

def exec (i : Instr) (s : State) : Host.Outcome State Fault Refusal :=
  match i with
  | .other00 => Sys2Proof.Machine.execOther00 s
  | .start => Sys2Proof.Machine.execStart s
  | .repStart => Sys2Proof.Machine.execRepStart s
  | .mtSlaAck => Sys2Proof.Machine.execMtSlaAck s
  | .mtSlaNack => Sys2Proof.Machine.execMtSlaNack s
  | .mtDataAck => Sys2Proof.Machine.execMtDataAck s
  | .mtDataNack => Sys2Proof.Machine.execMtDataNack s
  | .arbLost => Sys2Proof.Machine.execArbLost s
  | .mrSlaAck => Sys2Proof.Machine.execMrSlaAck s
  | .mrSlaNack => Sys2Proof.Machine.execMrSlaNack s
  | .mrDataAck => Sys2Proof.Machine.execMrDataAck s
  | .mrDataNack => Sys2Proof.Machine.execMrDataNack s
  | .srSlaAck => Sys2Proof.Machine.execSrSlaAck s
  | .other68 => Sys2Proof.Machine.execOther68 s
  | .srGcallAck => Sys2Proof.Machine.execSrGcallAck s
  | .other78 => Sys2Proof.Machine.execOther78 s
  | .srData80 => Sys2Proof.Machine.execSrData80 s
  | .other88 => Sys2Proof.Machine.execOther88 s
  | .srData90 => Sys2Proof.Machine.execSrData90 s
  | .other98 => Sys2Proof.Machine.execOther98 s
  | .srStop => Sys2Proof.Machine.execSrStop s
  | .stSlaAck => Sys2Proof.Machine.execStSlaAck s
  | .otherB0 => Sys2Proof.Machine.execOtherB0 s
  | .stDataAck => Sys2Proof.Machine.execStDataAck s
  | .stDataNack => Sys2Proof.Machine.execStDataNack s
  | .stLastAck => Sys2Proof.Machine.execStLastAck s
  | .otherD0 => Sys2Proof.Machine.execOtherD0 s
  | .otherD8 => Sys2Proof.Machine.execOtherD8 s
  | .otherE0 => Sys2Proof.Machine.execOtherE0 s
  | .otherE8 => Sys2Proof.Machine.execOtherE8 s
  | .otherF0 => Sys2Proof.Machine.execOtherF0 s
  | .otherF8 => Sys2Proof.Machine.execOtherF8 s
  | .send cb addr len src cbRef => Sys2Proof.Machine.execSend cb addr len src cbRef s
  | .receive cb addr len dst cbRef => Sys2Proof.Machine.execReceive cb addr len dst cbRef s

end Sys2Proof.Machine
end

