-- ==== Sys2Proof/Machine/HostSteps.lean ====
section
/-! DEFINITION. The steps that are no row of the opcode table: CONFIG (spec/40_host_requests.md R126), reset
(spec/70_reset_and_hazards.md R260), host reads (R127), the `wait` loop (R125, spec/30_encoding.md R104), and the
host's own writes to its memory (spec/20_memory.md R72, R266). -/

namespace Sys2Proof.Machine

/-- The trace has left the envelope when `ok` fails; once set the mark stays (93 U3, log 15). -/
def markUnless (ok : Bool) (s : State) : State := { s with leftContract := s.leftContract || !ok }

/-- CONFIG(rec) on the Slave Role Table (R126). -/
def configure (r : CfgRec) (t : SlaveTable) : SlaveTable :=
  if r.present then
    { enabled := true, ownAddr := r.ownAddr, bcast := r.bcast, rxValid := r.rxValid, txValid := r.txValid,
      rxRef := r.rxRef, txRef := r.txRef }
  else
    { t with enabled := false, bcast := false, rxValid := false, txValid := false }

/-- The CONFIG step: R126 has no guard, so a late one runs too and sets the mark (R272, U7, log 17). -/
def configStep (r : CfgRec) (s : State) : State :=
  { markUnless s.bootWindow s with srt := configure r s.srt, bootWindow := false }

/-- The reset step (R260): six fields to 0, every other field of CORE as the environment draws it (R39, U4,
log 5). No command, no output, no delivery, no access to memory; the engine is not touched. -/
def resetStep (d : Desc) (t : SlaveTable) (s : State) : State :=
  { s with
    desc := { fitDesc s.cfg d with cbValid := false }
    busy := false
    srt := { fitTable s.cfg t with enabled := false, bcast := false, rxValid := false, txValid := false }
    accepted := false
    bootWindow := true }

/-- A host read (R127, R237): nothing but the value read. -/
def readStep (what : ReadSel) (s : State) : State :=
  match what with
  | .busy => emit (.readBusy s.busy) s
  | .result => emit (.readResult s.desc.result) s
  | .desc => emit (.readDesc s.desc) s

/-- What may come while the foreground spins in `wait`: the interrupt context and a reset. -/
def Stimulus.interrupts : Stimulus → Bool
  | .event _ => true
  | .reset _ _ => true
  | .request _ | .callSync _ | .config _ | .hostRead _ | .wait | .hostWrite _ _ | .engineInit => false

/-- The first stimulus that may interrupt a spinning foreground, and the others in their order. -/
def takeInterrupt : List Stimulus → Option (Stimulus × List Stimulus)
  | [] => none
  | x :: rest =>
    if x.interrupts then some (x, rest)
    else match takeInterrupt rest with
      | some (y, others) => some (y, x :: others)
      | none => none

/-- One turn of the loop of R104: read `busy`; on 1 the loop goes on after the next interrupt, and with none to
come it spins for ever (R125, R269, log 18). -/
def waitStep (s : State) : State :=
  let s1 := emit (.readBusy s.busy) s
  if s.busy then
    match takeInterrupt s.inputs with
    | some (y, others) => { s1 with inputs := y :: .wait :: others }
    | none => { s1 with inputs := .wait :: s.inputs }
  else s1

/-- `a` lies in the destination buffer of a RECEIVE in flight (R72, R266). -/
def inFlightDestination (s : State) (a : Nat) : Bool :=
  s.busy && s.desc.dir = .read && (a + 2 ^ s.cfg.addrW - s.desc.dst) % 2 ^ s.cfg.addrW < s.desc.len

/-- The host writes one byte of its memory; into a destination buffer in flight this breaks R266 and sets the
mark (log 19). -/
def hostWriteStep (addr : Nat) (v : Byte) (s : State) : State :=
  let a := hostAddr s.cfg addr 0
  let s1 := markUnless (!inFlightDestination s a) s
  { s1 with mem := s1.mem.write a v }

end Sys2Proof.Machine
end

