-- ==== Sys2Proof/Machine/Engine.lean ====
section
/-! DEFINITION. The environment contract (spec/44_bus_conditions.md R216, R218; 93 U3): which event may come, and
how the engine's hidden state follows CORE's commands. It restricts nothing: CORE's rules run on every event, and
this part only decides the mark `leftContract` (log 15). No meaning reads `eng`. All of R216 is PRESUMED by the
spec itself, general knowledge (log 16). -/

namespace Sys2Proof.Machine

/-- The table of R216: the engine may produce this instruction's event now. OTHER is never out of contract (U3).
A row that names the last command asks for it, so a START posted over a transfer closes the transfer's rows. -/
def engineAllows (e : Engine) (srt : SlaveTable) (dir : Dir) (i : Instr) : Bool :=
  match i.event with
  | none | some .other => true
  | some .start => e.role = .idle && e.pendingStart
  | some .repStart => e.role = .restart && e.last = some .start
  | some .mtSlaAck | some .mtSlaNack => e.role = .addrQueued && e.last = some .ack && dir = .write
  | some .mrSlaAck | some .mrSlaNack => e.role = .addrQueued && e.last = some .ack && dir = .read
  | some .arbLost =>
    (e.role = .addrQueued && e.last = some .ack) || ((e.role = .mt || e.role = .mr) && e.last = some .nack)
  | some .mtDataAck | some .mtDataNack => e.role = .mt && e.last = some .nack
  | some .mrDataAck => e.role = .mr && e.last = some .ack
  | some .mrDataNack => e.role = .mr && e.last = some .nack
  | some .srSlaAck | some .stSlaAck => e.role = .idle && srt.enabled
  | some .srGcallAck => e.role = .idle && srt.enabled && srt.bcast
  | some .srData => e.role = .sr && e.last = some .ack
  | some .srStop => e.role = .sr
  | some .stDataAck => e.role = .st && e.last = some .ack
  | some .stDataNack => e.role = .st
  | some .stLastAck => e.role = .st && e.last = some .nack

/-- The statuses R216 names by their numbers, under whatever event the table decodes them (D6, log 12): arbitration
lost and addressed, slave data answered with no acknowledge, bus error. -/
def engineAllowsStatus (e : Engine) (w : Byte) : Bool :=
  match (statusCode w).toNat with
  | 0x00 => true
  | 0x68 | 0x78 | 0xB0 => e.role = .addrQueued && e.last = some .ack
  | 0x88 | 0x98 => e.role = .sr && e.last = some .nack
  | _ => false

/-- R216 for a status word. -/
def contractAllows (s : State) (w : Byte) : Bool :=
  engineAllows s.eng s.srt s.desc.dir (decodeStatus s.cfg w) || engineAllowsStatus s.eng w

/-- The pairs of U3 read on CORE's own state: true when the event fits it. -/
def eventFits (i : Instr) (s : State) : Bool :=
  match i.event with
  | none | some .other => true
  | some .start | some .repStart | some .arbLost => s.busy
  | some .mtSlaAck | some .mtDataAck | some .mtDataNack => s.busy && s.desc.dir = .write
  | some .mtSlaNack => s.busy && s.desc.dir = .write && retriesRemain s.desc
  | some .mrSlaAck => s.busy && s.desc.dir = .read
  | some .mrSlaNack => s.busy && s.desc.dir = .read && retriesRemain s.desc
  | some .mrDataAck => s.busy && s.desc.dir = .read && s.desc.idx + 2 ≤ s.desc.len
  | some .mrDataNack => s.busy && s.desc.dir = .read && s.desc.idx + 1 = s.desc.len
  | some .srSlaAck | some .srGcallAck | some .srData | some .srStop | some .stSlaAck | some .stDataAck
  | some .stLastAck | some .stDataNack => s.srt.enabled

/-- The last command among a step's outputs. -/
def issuedCmd : List Output → Option Cmd
  | [] => none
  | .busCmd c :: rest => some ((issuedCmd rest).getD c)
  | .response _ :: rest | .memRead _ :: rest | .memWrite _ _ :: rest | .busOut _ :: rest
  | .call _ _ _ :: rest | .done _ _ :: rest | .readBusy _ :: rest | .readResult _ :: rest
  | .readDesc _ :: rest => issuedCmd rest

/-- The role the engine takes when the event is answered with ACK or NACK (R197, R198, R216). -/
def roleOfEvent (i : Instr) (r : EngineRole) : EngineRole :=
  match i.event with
  | some .start | some .repStart => .addrQueued
  | some .mtSlaAck | some .mtSlaNack | some .mtDataAck | some .mtDataNack => .mt
  | some .mrSlaAck | some .mrSlaNack | some .mrDataAck | some .mrDataNack => .mr
  | some .srSlaAck | some .srGcallAck | some .srData | some .srStop => .sr
  | some .stSlaAck | some .stDataAck | some .stLastAck | some .stDataNack => .st
  | some .arbLost | some .other | none => r

/-- Whether the start request outlives this event: sent by START, kept over a slave session only if
`START_STICKY` (R218). DESIGN CHOICE (log 28): under the alternative decode of D6 a session that opens with arbitration
lost and addressed (0x68, 0x78, 0xB0) finds the request already sent, so none is owed after it; the spec leaves open
whether one is. -/
def keepsPending (sticky : Bool) (i : Instr) (pending : Bool) : Bool :=
  match i.event with
  | some .start | some .repStart => false
  | some e => pending && (sticky || !e.slaveClass)
  | none => pending

/-- The engine obeys the command that answers an event (R195 to R200, R216). An engine not set up obeys
nothing (R261). -/
def obey (sticky : Bool) (i : Instr) (c : Cmd) (e : Engine) : Engine :=
  if e.role = .off then e
  else
    let kept := keepsPending sticky i e.pendingStart
    match c with
    | .stop | .release => { role := .idle, last := some c, pendingStart := kept }
    | .reset => { role := .idle, last := some c, pendingStart := false }
    | .start =>
      match i.event with
      | some .mtSlaNack | some .mrSlaNack => { role := .restart, last := some c, pendingStart := kept }
      | _ => { role := .idle, last := some c, pendingStart := true }
    | .ack | .nack => { role := roleOfEvent i e.role, last := some c, pendingStart := kept }

/-- The engine gets the START of an accept step (R195): start pending, whatever transfer a reset of CORE may have left
it in the middle of (the row `start pending` of R216, which names this START). In a slave session the session goes on
under its own last command and the start waits (R218, log 16). -/
def postStart (e : Engine) : Engine :=
  if e.role = .off then e
  else if e.role = .sr || e.role = .st then { e with pendingStart := true }
  else { role := .idle, last := some .start, pendingStart := true }

/-- The engine after the collaborator has set it up: idle, listening, nothing pending (R261, log 16). DESIGN CHOICE
(log 27): the spec calls the set-up one-time (R5) and puts it before the first request (R261), and says nothing of a
repeated or late one; it sets the engine up again, whatever the engine was doing, leaves CORE as it is, and sets the
mark unless it comes in the boot window. -/
def engineInitStep (s : State) : State :=
  { markUnless s.bootWindow s with eng := { role := .idle, last := none, pendingStart := false } }

/-- The start of an event step: the BEI registers and the environment's answers of this event, and the mark if
the event is outside the contract. -/
def openEvent (e : BusEvent) (s : State) : State :=
  let s1 := markUnless (contractAllows s e.status && eventFits (decodeStatus s.cfg e.status) s) s
  { s1 with
    bei := { s1.bei with status := e.status, input := e.input }
    env := { reply := e.reply, callback := e.callback }
    bootWindow := false }

/-- The end of an event step: the engine proceeds with the command issued (R215). -/
def closeEvent (i : Instr) (t : State) : State :=
  match issuedCmd t.outs with
  | some c => { t with eng := obey t.cfg.startSticky i c t.eng }
  | none => t

/-- The start of a request step: CONFIG is no longer in time (R272). -/
def openRequest (s : State) : State := { s with bootWindow := false }

/-- The end of a request step: an accepted request has posted START. -/
def closeRequest (t : State) : State :=
  match issuedCmd t.outs with
  | some _ => { t with eng := postStart t.eng }
  | none => t

end Sys2Proof.Machine
end

