-- ==== Sys2Proof/Machine/Run.lean ====
section
/-! DEFINITION. One stimulus run to its end: decode, the meaning, and what the step adds around it. -/

namespace Sys2Proof.Machine

/-- Apply `f` to the next state; a stop stays as it is. -/
def onNext (f : State → State) : Host.Outcome State Fault Refusal → Host.Outcome State Fault Refusal
  | .next t => .next (f t)
  | .fault r => .fault r
  | .refused r => .refused r

/-- The refusal of an operand that cannot stand on its interface (log 13). -/
def refusalOf : DecodeError → Refusal
  | .pointerTooWide => .pointerTooWide
  | .referenceTooWide => .referenceTooWide

/-- The event step (R140): the status word is decoded, its rule runs, the engine proceeds. -/
def runEvent (e : BusEvent) (s : State) : Host.Outcome State Fault Refusal :=
  onNext (closeEvent (decodeStatus s.cfg e.status)) (exec (decodeStatus s.cfg e.status) (openEvent e s))

/-- The host request step (R8, R120). -/
def runRequest (r : RawReq) (s : State) : Host.Outcome State Fault Refusal :=
  match decode s.cfg (.request r) with
  | .ok i => onNext closeRequest (exec i (openRequest s))
  | .error e => .refused (refusalOf e)

/-- After the request of a synchronous call: on ACCEPTED the caller waits and then reads the result (R104). -/
def blockCaller (t : State) : State :=
  if Output.response .accepted ∈ t.outs then
    { t with inputs := .wait :: .hostRead .result :: t.inputs }
  else t

/-- The synchronous form of a request: `cb = 0`, then `wait`, then read `desc.result` (R104, R123, log 18). -/
def runSync (r : RawReq) (s : State) : Host.Outcome State Fault Refusal :=
  onNext blockCaller (runRequest { r with header := r.header &&& 0x0FF } s)

/-- The CONFIG step (R126), its references checked first (R101, log 13). -/
def runConfig (r : CfgRec) (s : State) : Host.Outcome State Fault Refusal :=
  match r.decode s.cfg with
  | .ok c => .next (configStep c s)
  | .error e => .refused (refusalOf e)

/-- No stimulus is left: CORE waits, or hangs with `busy = 1` (R269, U11, log 14). -/
def quiet (s : State) : Host.Outcome State Fault Refusal :=
  .fault (if s.busy then .lockedUp else .awaitingStimulus)

/-- One stimulus, already taken off `inputs`. -/
def runStimulus (x : Stimulus) (s : State) : Host.Outcome State Fault Refusal :=
  match x with
  | .event e => runEvent e s
  | .request r => runRequest r s
  | .callSync r => runSync r s
  | .config r => runConfig r s
  | .reset d t => .next (resetStep d t s)
  | .hostRead what => .next (readStep what s)
  | .wait => .next (waitStep s)
  | .hostWrite a v => .next (hostWriteStep a v s)
  | .engineInit => .next (engineInitStep s)

/-- The state a step works on: the stimulus is off the list and the outputs of the step before are gone (R20,
log 8). -/
def takeStimulus (rest : List Stimulus) (s : State) : State := { s with inputs := rest, outs := [] }

/-- The stimulus a table word stands for: a status word with `BusIn() = 0` and a rejecting handler, or a request
header with operands of 0 (log 21). -/
def tableStimulus (nbits w : Nat) : Stimulus :=
  if nbits ≤ 8 then
    .event ⟨BitVec.ofNat 8 w, 0, ⟨false, none, []⟩, []⟩
  else .request ⟨BitVec.ofNat 9 w, 0, 0, 0⟩

end Sys2Proof.Machine
end

