-- ==== Sys2Proof/Machine/Step.lean ====
section
/-! DEFINITION. One step of the machine (spec/00_scope.md R8): the next stimulus, run to its end. -/

namespace Sys2Proof.Machine

/-- Steps are atomic and totally ordered (R8, R76, R233); the order is that of `inputs`, which nothing
constrains. -/
def step (s : State) : Host.Outcome State Fault Refusal :=
  match s.inputs with
  | [] => quiet s
  | x :: rest => runStimulus x (takeStimulus rest s)

/-- The word as the very next stimulus (log 21). -/
def State.withFetchWord (s : State) (nbits w : Nat) : State :=
  { s with inputs := tableStimulus nbits w :: s.inputs }

end Sys2Proof.Machine
end

