-- ==== Sys2Proof/Laws/State.lean ====
section
/-! SUPPORT. One lemma per field per update of the state, so that no later proof unfolds a record update. -/

namespace Sys2Proof.Machine

/-! ### emit -/

section
variable (o : Output) (s : State)
@[simp] theorem emit_cfg : (emit o s).cfg = s.cfg := rfl
@[simp] theorem emit_desc : (emit o s).desc = s.desc := rfl
@[simp] theorem emit_busy : (emit o s).busy = s.busy := rfl
@[simp] theorem emit_srt : (emit o s).srt = s.srt := rfl
@[simp] theorem emit_bei : (emit o s).bei = s.bei := rfl
@[simp] theorem emit_mem : (emit o s).mem = s.mem := rfl
@[simp] theorem emit_env : (emit o s).env = s.env := rfl
@[simp] theorem emit_eng : (emit o s).eng = s.eng := rfl
@[simp] theorem emit_inputs : (emit o s).inputs = s.inputs := rfl
@[simp] theorem emit_outs : (emit o s).outs = s.outs ++ [o] := rfl
@[simp] theorem emit_accepted : (emit o s).accepted = s.accepted := rfl
@[simp] theorem emit_bootWindow : (emit o s).bootWindow = s.bootWindow := rfl
@[simp] theorem emit_leftContract : (emit o s).leftContract = s.leftContract := rfl
end

/-! ### busOut -/

section
variable (v : Byte) (s : State)
@[simp] theorem busOut_cfg : (busOut v s).cfg = s.cfg := rfl
@[simp] theorem busOut_desc : (busOut v s).desc = s.desc := rfl
@[simp] theorem busOut_busy : (busOut v s).busy = s.busy := rfl
@[simp] theorem busOut_srt : (busOut v s).srt = s.srt := rfl
@[simp] theorem busOut_bei : (busOut v s).bei = { s.bei with output := v } := rfl
@[simp] theorem busOut_mem : (busOut v s).mem = s.mem := rfl
@[simp] theorem busOut_env : (busOut v s).env = s.env := rfl
@[simp] theorem busOut_eng : (busOut v s).eng = s.eng := rfl
@[simp] theorem busOut_inputs : (busOut v s).inputs = s.inputs := rfl
@[simp] theorem busOut_outs : (busOut v s).outs = s.outs ++ [.busOut v] := rfl
@[simp] theorem busOut_accepted : (busOut v s).accepted = s.accepted := rfl
@[simp] theorem busOut_bootWindow : (busOut v s).bootWindow = s.bootWindow := rfl
@[simp] theorem busOut_leftContract : (busOut v s).leftContract = s.leftContract := rfl
end

/-! ### busCmd -/

section
variable (c : Cmd) (s : State)
@[simp] theorem busCmd_cfg : (busCmd c s).cfg = s.cfg := rfl
@[simp] theorem busCmd_desc : (busCmd c s).desc = s.desc := rfl
@[simp] theorem busCmd_busy : (busCmd c s).busy = s.busy := rfl
@[simp] theorem busCmd_srt : (busCmd c s).srt = s.srt := rfl
@[simp] theorem busCmd_bei : (busCmd c s).bei = { s.bei with cmd := c.code } := rfl
@[simp] theorem busCmd_mem : (busCmd c s).mem = s.mem := rfl
@[simp] theorem busCmd_env : (busCmd c s).env = s.env := rfl
@[simp] theorem busCmd_eng : (busCmd c s).eng = s.eng := rfl
@[simp] theorem busCmd_inputs : (busCmd c s).inputs = s.inputs := rfl
@[simp] theorem busCmd_outs : (busCmd c s).outs = s.outs ++ [.busCmd c] := rfl
@[simp] theorem busCmd_accepted : (busCmd c s).accepted = s.accepted := rfl
@[simp] theorem busCmd_bootWindow : (busCmd c s).bootWindow = s.bootWindow := rfl
@[simp] theorem busCmd_leftContract : (busCmd c s).leftContract = s.leftContract := rfl
end

/-! ### respond -/

section
variable (r : ResCode) (s : State)
@[simp] theorem respond_cfg : (respond r s).cfg = s.cfg := rfl
@[simp] theorem respond_desc : (respond r s).desc = s.desc := rfl
@[simp] theorem respond_busy : (respond r s).busy = s.busy := rfl
@[simp] theorem respond_srt : (respond r s).srt = s.srt := rfl
@[simp] theorem respond_bei : (respond r s).bei = s.bei := rfl
@[simp] theorem respond_mem : (respond r s).mem = s.mem := rfl
@[simp] theorem respond_env : (respond r s).env = s.env := rfl
@[simp] theorem respond_eng : (respond r s).eng = s.eng := rfl
@[simp] theorem respond_inputs : (respond r s).inputs = s.inputs := rfl
@[simp] theorem respond_outs : (respond r s).outs = s.outs ++ [.response r] := rfl
@[simp] theorem respond_accepted : (respond r s).accepted = s.accepted := rfl
@[simp] theorem respond_bootWindow : (respond r s).bootWindow = s.bootWindow := rfl
@[simp] theorem respond_leftContract : (respond r s).leftContract = s.leftContract := rfl
end

/-! ### notify -/

section
variable (r : ResCode) (ref : Nat) (s : State)
@[simp] theorem notify_cfg : (notify r ref s).cfg = s.cfg := rfl
@[simp] theorem notify_desc : (notify r ref s).desc = s.desc := rfl
@[simp] theorem notify_busy : (notify r ref s).busy = s.busy := rfl
@[simp] theorem notify_srt : (notify r ref s).srt = s.srt := rfl
@[simp] theorem notify_bei : (notify r ref s).bei = s.bei := rfl
@[simp] theorem notify_mem : (notify r ref s).mem = s.mem := rfl
@[simp] theorem notify_env : (notify r ref s).env = s.env := rfl
@[simp] theorem notify_eng : (notify r ref s).eng = s.eng := rfl
@[simp] theorem notify_inputs : (notify r ref s).inputs = s.inputs := rfl
@[simp] theorem notify_outs : (notify r ref s).outs = s.outs ++ [.done r ref] := rfl
@[simp] theorem notify_accepted : (notify r ref s).accepted = s.accepted := rfl
@[simp] theorem notify_bootWindow : (notify r ref s).bootWindow = s.bootWindow := rfl
@[simp] theorem notify_leftContract : (notify r ref s).leftContract = s.leftContract := rfl
end

/-! ### hmemWrite -/

section
variable (a : Nat) (v : Byte) (s : State)
@[simp] theorem hmemWrite_cfg : (hmemWrite a v s).cfg = s.cfg := rfl
@[simp] theorem hmemWrite_desc : (hmemWrite a v s).desc = s.desc := rfl
@[simp] theorem hmemWrite_busy : (hmemWrite a v s).busy = s.busy := rfl
@[simp] theorem hmemWrite_srt : (hmemWrite a v s).srt = s.srt := rfl
@[simp] theorem hmemWrite_bei : (hmemWrite a v s).bei = s.bei := rfl
@[simp] theorem hmemWrite_mem : (hmemWrite a v s).mem = s.mem.write a v := rfl
@[simp] theorem hmemWrite_env : (hmemWrite a v s).env = s.env := rfl
@[simp] theorem hmemWrite_eng : (hmemWrite a v s).eng = s.eng := rfl
@[simp] theorem hmemWrite_inputs : (hmemWrite a v s).inputs = s.inputs := rfl
@[simp] theorem hmemWrite_outs : (hmemWrite a v s).outs = s.outs ++ [.memWrite a v] := rfl
@[simp] theorem hmemWrite_accepted : (hmemWrite a v s).accepted = s.accepted := rfl
@[simp] theorem hmemWrite_bootWindow : (hmemWrite a v s).bootWindow = s.bootWindow := rfl
@[simp] theorem hmemWrite_leftContract : (hmemWrite a v s).leftContract = s.leftContract := rfl
end

/-! ### setBusy -/

section
variable (b : Bool) (s : State)
@[simp] theorem setBusy_cfg : (setBusy b s).cfg = s.cfg := rfl
@[simp] theorem setBusy_desc : (setBusy b s).desc = s.desc := rfl
@[simp] theorem setBusy_busy : (setBusy b s).busy = b := rfl
@[simp] theorem setBusy_srt : (setBusy b s).srt = s.srt := rfl
@[simp] theorem setBusy_bei : (setBusy b s).bei = s.bei := rfl
@[simp] theorem setBusy_mem : (setBusy b s).mem = s.mem := rfl
@[simp] theorem setBusy_env : (setBusy b s).env = s.env := rfl
@[simp] theorem setBusy_eng : (setBusy b s).eng = s.eng := rfl
@[simp] theorem setBusy_inputs : (setBusy b s).inputs = s.inputs := rfl
@[simp] theorem setBusy_outs : (setBusy b s).outs = s.outs := rfl
@[simp] theorem setBusy_accepted : (setBusy b s).accepted = s.accepted := rfl
@[simp] theorem setBusy_bootWindow : (setBusy b s).bootWindow = s.bootWindow := rfl
@[simp] theorem setBusy_leftContract : (setBusy b s).leftContract = s.leftContract := rfl
end

/-! ### setDesc -/

section
variable (d : Desc) (s : State)
@[simp] theorem setDesc_cfg : (setDesc d s).cfg = s.cfg := rfl
@[simp] theorem setDesc_desc : (setDesc d s).desc = d := rfl
@[simp] theorem setDesc_busy : (setDesc d s).busy = s.busy := rfl
@[simp] theorem setDesc_srt : (setDesc d s).srt = s.srt := rfl
@[simp] theorem setDesc_bei : (setDesc d s).bei = s.bei := rfl
@[simp] theorem setDesc_mem : (setDesc d s).mem = s.mem := rfl
@[simp] theorem setDesc_env : (setDesc d s).env = s.env := rfl
@[simp] theorem setDesc_eng : (setDesc d s).eng = s.eng := rfl
@[simp] theorem setDesc_inputs : (setDesc d s).inputs = s.inputs := rfl
@[simp] theorem setDesc_outs : (setDesc d s).outs = s.outs := rfl
@[simp] theorem setDesc_accepted : (setDesc d s).accepted = s.accepted := rfl
@[simp] theorem setDesc_bootWindow : (setDesc d s).bootWindow = s.bootWindow := rfl
@[simp] theorem setDesc_leftContract : (setDesc d s).leftContract = s.leftContract := rfl
end

/-! ### setIdx -/

section
variable (n : Nat) (s : State)
@[simp] theorem setIdx_cfg : (setIdx n s).cfg = s.cfg := rfl
@[simp] theorem setIdx_desc : (setIdx n s).desc = { s.desc with idx := n } := rfl
@[simp] theorem setIdx_busy : (setIdx n s).busy = s.busy := rfl
@[simp] theorem setIdx_srt : (setIdx n s).srt = s.srt := rfl
@[simp] theorem setIdx_bei : (setIdx n s).bei = s.bei := rfl
@[simp] theorem setIdx_mem : (setIdx n s).mem = s.mem := rfl
@[simp] theorem setIdx_env : (setIdx n s).env = s.env := rfl
@[simp] theorem setIdx_eng : (setIdx n s).eng = s.eng := rfl
@[simp] theorem setIdx_inputs : (setIdx n s).inputs = s.inputs := rfl
@[simp] theorem setIdx_outs : (setIdx n s).outs = s.outs := rfl
@[simp] theorem setIdx_accepted : (setIdx n s).accepted = s.accepted := rfl
@[simp] theorem setIdx_bootWindow : (setIdx n s).bootWindow = s.bootWindow := rfl
@[simp] theorem setIdx_leftContract : (setIdx n s).leftContract = s.leftContract := rfl
end

/-! ### setTries -/

section
variable (n : Nat) (s : State)
@[simp] theorem setTries_cfg : (setTries n s).cfg = s.cfg := rfl
@[simp] theorem setTries_desc : (setTries n s).desc = { s.desc with tries := n } := rfl
@[simp] theorem setTries_busy : (setTries n s).busy = s.busy := rfl
@[simp] theorem setTries_srt : (setTries n s).srt = s.srt := rfl
@[simp] theorem setTries_bei : (setTries n s).bei = s.bei := rfl
@[simp] theorem setTries_mem : (setTries n s).mem = s.mem := rfl
@[simp] theorem setTries_env : (setTries n s).env = s.env := rfl
@[simp] theorem setTries_eng : (setTries n s).eng = s.eng := rfl
@[simp] theorem setTries_inputs : (setTries n s).inputs = s.inputs := rfl
@[simp] theorem setTries_outs : (setTries n s).outs = s.outs := rfl
@[simp] theorem setTries_accepted : (setTries n s).accepted = s.accepted := rfl
@[simp] theorem setTries_bootWindow : (setTries n s).bootWindow = s.bootWindow := rfl
@[simp] theorem setTries_leftContract : (setTries n s).leftContract = s.leftContract := rfl
end

/-! ### setCbValid -/

section
variable (b : Bool) (s : State)
@[simp] theorem setCbValid_cfg : (setCbValid b s).cfg = s.cfg := rfl
@[simp] theorem setCbValid_desc : (setCbValid b s).desc = { s.desc with cbValid := b } := rfl
@[simp] theorem setCbValid_busy : (setCbValid b s).busy = s.busy := rfl
@[simp] theorem setCbValid_srt : (setCbValid b s).srt = s.srt := rfl
@[simp] theorem setCbValid_bei : (setCbValid b s).bei = s.bei := rfl
@[simp] theorem setCbValid_mem : (setCbValid b s).mem = s.mem := rfl
@[simp] theorem setCbValid_env : (setCbValid b s).env = s.env := rfl
@[simp] theorem setCbValid_eng : (setCbValid b s).eng = s.eng := rfl
@[simp] theorem setCbValid_inputs : (setCbValid b s).inputs = s.inputs := rfl
@[simp] theorem setCbValid_outs : (setCbValid b s).outs = s.outs := rfl
@[simp] theorem setCbValid_accepted : (setCbValid b s).accepted = s.accepted := rfl
@[simp] theorem setCbValid_bootWindow : (setCbValid b s).bootWindow = s.bootWindow := rfl
@[simp] theorem setCbValid_leftContract : (setCbValid b s).leftContract = s.leftContract := rfl
end

/-! ### setResult -/

section
variable (r : ResCode) (s : State)
@[simp] theorem setResult_cfg : (setResult r s).cfg = s.cfg := rfl
@[simp] theorem setResult_desc : (setResult r s).desc = { s.desc with result := r } := rfl
@[simp] theorem setResult_busy : (setResult r s).busy = s.busy := rfl
@[simp] theorem setResult_srt : (setResult r s).srt = s.srt := rfl
@[simp] theorem setResult_bei : (setResult r s).bei = s.bei := rfl
@[simp] theorem setResult_mem : (setResult r s).mem = s.mem := rfl
@[simp] theorem setResult_env : (setResult r s).env = s.env := rfl
@[simp] theorem setResult_eng : (setResult r s).eng = s.eng := rfl
@[simp] theorem setResult_inputs : (setResult r s).inputs = s.inputs := rfl
@[simp] theorem setResult_outs : (setResult r s).outs = s.outs := rfl
@[simp] theorem setResult_accepted : (setResult r s).accepted = s.accepted := rfl
@[simp] theorem setResult_bootWindow : (setResult r s).bootWindow = s.bootWindow := rfl
@[simp] theorem setResult_leftContract : (setResult r s).leftContract = s.leftContract := rfl
end

/-! ### markUnless -/

section
variable (ok : Bool) (s : State)
@[simp] theorem markUnless_cfg : (markUnless ok s).cfg = s.cfg := rfl
@[simp] theorem markUnless_desc : (markUnless ok s).desc = s.desc := rfl
@[simp] theorem markUnless_busy : (markUnless ok s).busy = s.busy := rfl
@[simp] theorem markUnless_srt : (markUnless ok s).srt = s.srt := rfl
@[simp] theorem markUnless_bei : (markUnless ok s).bei = s.bei := rfl
@[simp] theorem markUnless_mem : (markUnless ok s).mem = s.mem := rfl
@[simp] theorem markUnless_env : (markUnless ok s).env = s.env := rfl
@[simp] theorem markUnless_eng : (markUnless ok s).eng = s.eng := rfl
@[simp] theorem markUnless_inputs : (markUnless ok s).inputs = s.inputs := rfl
@[simp] theorem markUnless_outs : (markUnless ok s).outs = s.outs := rfl
@[simp] theorem markUnless_accepted : (markUnless ok s).accepted = s.accepted := rfl
@[simp] theorem markUnless_bootWindow : (markUnless ok s).bootWindow = s.bootWindow := rfl
@[simp] theorem markUnless_leftContract : (markUnless ok s).leftContract = (s.leftContract || !ok) := rfl
end

/-! ### takeStimulus -/

section
variable (rest : List Stimulus) (s : State)
@[simp] theorem takeStimulus_cfg : (takeStimulus rest s).cfg = s.cfg := rfl
@[simp] theorem takeStimulus_desc : (takeStimulus rest s).desc = s.desc := rfl
@[simp] theorem takeStimulus_busy : (takeStimulus rest s).busy = s.busy := rfl
@[simp] theorem takeStimulus_srt : (takeStimulus rest s).srt = s.srt := rfl
@[simp] theorem takeStimulus_bei : (takeStimulus rest s).bei = s.bei := rfl
@[simp] theorem takeStimulus_mem : (takeStimulus rest s).mem = s.mem := rfl
@[simp] theorem takeStimulus_env : (takeStimulus rest s).env = s.env := rfl
@[simp] theorem takeStimulus_eng : (takeStimulus rest s).eng = s.eng := rfl
@[simp] theorem takeStimulus_inputs : (takeStimulus rest s).inputs = rest := rfl
@[simp] theorem takeStimulus_outs : (takeStimulus rest s).outs = [] := rfl
@[simp] theorem takeStimulus_accepted : (takeStimulus rest s).accepted = s.accepted := rfl
@[simp] theorem takeStimulus_bootWindow : (takeStimulus rest s).bootWindow = s.bootWindow := rfl
@[simp] theorem takeStimulus_leftContract : (takeStimulus rest s).leftContract = s.leftContract := rfl
end

end Sys2Proof.Machine
end

