-- ==== Sys2Proof/Laws/Memory.lean ====
section
/-! SUPPORT. The laws of host memory: a write is read back and leaves every other address alone, and every
operation on memory keeps the canonical form. -/

namespace Sys2Proof.Machine

@[simp] theorem Memory.read_nil (a : Nat) : Memory.read [] a = Memory.unlisted := rfl

@[simp] theorem Memory.read_cons (x : Host.Cell) (m : Memory) (a : Nat) :
    Memory.read (x :: m) a = if x.1 = a then x.2 else Memory.read m a := rfl

theorem Memory.wf_cons {x : Host.Cell} {m : Memory} :
    Memory.wf (x :: m) ↔ (∀ y ∈ m, x.1 < y.1) ∧ x.2 ≠ Memory.unlisted ∧ Memory.wf m := by
  unfold Memory.wf
  rw [List.pairwise_cons, List.forall_mem_cons]
  tauto

/-- An address below every listed one reads as unlisted. -/
theorem Memory.read_of_lt {m : Memory} {a : Nat} (h : ∀ y ∈ m, a < y.1) :
    Memory.read m a = Memory.unlisted := by
  induction m with
  | nil => rfl
  | cons x m ih =>
    have hx := h x (by simp)
    rw [Memory.read_cons, if_neg (by omega), ih fun y hy => h y (by simp [hy])]

/-- A write adds no address but its own. -/
theorem Memory.mem_write {m : Memory} {a : Nat} {v : Byte} {y : Host.Cell} (h : y ∈ Memory.write m a v) :
    y ∈ m ∨ y = (a, v) := by
  induction m with
  | nil =>
    unfold Memory.write at h
    split at h <;> simp_all
  | cons x m ih =>
    obtain ⟨k, b⟩ := x
    unfold Memory.write at h
    split at h
    · split at h
      · exact .inl h
      · exact (List.mem_cons.1 h).symm
    · split at h
      · split at h
        · exact .inl (List.mem_cons_of_mem _ h)
        · exact (List.mem_cons.1 h).symm.imp_left (List.mem_cons_of_mem _)
      · rcases List.mem_cons.1 h with rfl | h
        · exact .inl (by simp)
        · exact (ih h).imp_left (List.mem_cons_of_mem _)

/-- The write keeps the canonical form. -/
theorem Memory.write_wf {m : Memory} (h : m.wf) (a : Nat) (v : Byte) : (m.write a v).wf := by
  induction m with
  | nil =>
    unfold Memory.write
    split <;> simp_all [Memory.wf]
  | cons x m ih =>
    obtain ⟨k, b⟩ := x
    obtain ⟨hlt, hb, hm⟩ := Memory.wf_cons.1 h
    unfold Memory.write
    split
    · rename_i hak
      split
      · exact h
      · refine Memory.wf_cons.2 ⟨fun y hy => ?_, ‹_›, h⟩
        rcases List.mem_cons.1 hy with rfl | hy
        · exact hak
        · exact hak.trans (hlt y hy)
    · split
      · split
        · exact hm
        · subst_vars
          exact Memory.wf_cons.2 ⟨hlt, ‹_›, hm⟩
      · refine Memory.wf_cons.2 ⟨fun y hy => ?_, hb, ih hm⟩
        rcases Memory.mem_write hy with hy | rfl
        · exact hlt y hy
        · show k < a
          omega

/-- A byte written inside the address space keeps every listed address inside it. -/
theorem Memory.write_inSpace {c : Config} {m : Memory} (h : m.inSpace c) {a : Nat} (ha : a < 2 ^ c.addrW)
    (v : Byte) : (m.write a v).inSpace c := fun _ hy =>
  (Memory.mem_write hy).elim (h _) fun e => e ▸ ha

/-- Read after write, for the address written and every other one. -/
theorem Memory.read_write {m : Memory} (h : m.wf) (a : Nat) (v : Byte) (b : Nat) :
    (m.write a v).read b = if b = a then v else m.read b := by
  induction m with
  | nil =>
    unfold Memory.write
    split <;> simp_all [eq_comm]
  | cons x m ih =>
    obtain ⟨k, w⟩ := x
    obtain ⟨hlt, hw, hm⟩ := Memory.wf_cons.1 h
    unfold Memory.write
    split
    · rename_i hak
      split
      · subst_vars
        split
        · subst_vars
          refine Memory.read_of_lt fun y hy => ?_
          rcases List.mem_cons.1 hy with rfl | hy
          · exact hak
          · exact hak.trans (hlt y hy)
        · rfl
      · simp only [Memory.read_cons, eq_comm (a := a)]
    · split
      · subst_vars
        split
        · subst_vars
          split
          · exact Memory.read_of_lt (by subst_vars; exact hlt)
          · rw [Memory.read_cons, if_neg fun e => ‹¬b = k› e.symm]
        · rw [Memory.read_cons, Memory.read_cons]
          split
          · rw [if_pos (by simp_all)]
          · rw [if_neg (by simp_all [eq_comm])]
      · rw [Memory.read_cons, Memory.read_cons, ih hm]
        split
        · rw [if_neg (by simp_all [eq_comm])]
        · rfl

theorem Memory.reset_wf : State.reset.mem.wf := by decide

end Sys2Proof.Machine
end

