-- ==== Sys2Proof/Safety.lean ====
section
/-! DEFINITION. The terms claims are stated in: which instructions are events, what a list of outputs holds, the
invariant of the machine, and the outputs of a run. -/

namespace Sys2Proof

/-- An event row of the opcode table (format STATUS8), as against a host request. -/
def Instr.isEvent (i : Instr) : Bool := i.event.isSome

/-- A slave-class event (spec/30_encoding.md R94). -/
def Instr.isSlave (i : Instr) : Bool := i.event.any Event.slaveClass

/-- The result codes `Deliver` can carry (spec/43_gate_and_commands.md R191). -/
def ResCode.deliverable : ResCode → Bool
  | .ok | .notFound | .rejected | .aborted | .unknown => true
  | .busy | .badParameter | .accepted => false

end Sys2Proof

namespace Sys2Proof.Machine

/-- The bus commands among outputs, in order. -/
def busCmds : List Output → List Cmd
  | [] => []
  | .busCmd c :: rest => c :: busCmds rest
  | .response _ :: rest | .memRead _ :: rest | .memWrite _ _ :: rest | .busOut _ :: rest
  | .call _ _ _ :: rest | .done _ _ :: rest | .readBusy _ :: rest | .readResult _ :: rest
  | .readDesc _ :: rest => busCmds rest

/-- The completion notifications among outputs, in order. -/
def notices : List Output → List ResCode
  | [] => []
  | .done r _ :: rest => r :: notices rest
  | .response _ :: rest | .memRead _ :: rest | .memWrite _ _ :: rest | .busOut _ :: rest
  | .call _ _ _ :: rest | .busCmd _ :: rest | .readBusy _ :: rest | .readResult _ :: rest
  | .readDesc _ :: rest => notices rest

/-- An output that may stand before the bus command of an event step: a handler call, a byte for the engine, a
store, the response to a request of the handler (spec/43_gate_and_commands.md R193, spec/20_memory.md R74,
spec/70_reset_and_hazards.md R267). -/
def Output.beforeCommand : Output → Bool
  | .call _ _ _ | .busOut _ | .memWrite _ _ | .response _ => true
  | .memRead _ | .busCmd _ | .done _ _ | .readBusy _ | .readResult _ | .readDesc _ => false

/-- An output that may stand after the bus command of an event step: the notification and the responses to the
callback's own requests (spec/40_host_requests.md R128). -/
def Output.afterCommand : Output → Bool
  | .done _ _ | .response _ => true
  | .call _ _ _ | .busOut _ | .memWrite _ _ | .memRead _ | .busCmd _ | .readBusy _ | .readResult _
  | .readDesc _ => false

/-- The invariant of the machine: R38 of spec/10_state.md with the widths of R20, legal parameters (R7), and host
memory in its canonical form inside the address space. `accepted` stands for "a request has been accepted since
reset". -/
structure Inv (s : State) : Prop where
  /-- R7. -/
  cfgLegal : s.cfg.wf = true
  /-- R23: `BUF_CAP` elements. -/
  bufLength : s.desc.buf.length = s.cfg.bufCap
  /-- R24. -/
  dstFits : s.desc.dst < 2 ^ s.cfg.addrW
  /-- R20, R25. -/
  lenFits : s.desc.len < 2 ^ lenWidth s.cfg
  /-- R20, R26. -/
  idxFits : s.desc.idx < 2 ^ lenWidth s.cfg
  /-- R38(c). -/
  triesBound : s.desc.tries ≤ s.cfg.maxTries
  /-- R28. -/
  cbRefFits : s.desc.cbRef < 2 ^ s.cfg.cbW
  /-- R33. -/
  tableFits : s.srt.rxRef < 2 ^ s.cfg.cbW ∧ s.srt.txRef < 2 ^ s.cfg.cbW
  /-- R38(a). -/
  lenRange : s.accepted = true → 1 ≤ s.desc.len ∧ s.desc.len ≤ s.cfg.bufCap
  /-- R38(b). -/
  idxBound : s.accepted = true → s.desc.idx ≤ s.desc.len
  /-- A transaction in flight is an accepted one (R31). -/
  busyAccepted : s.busy = true → s.accepted = true
  /-- R32, R38(d). -/
  callbackBusy : s.desc.cbValid = true → s.busy = true
  memCanonical : s.mem.wf
  memInSpace : s.mem.inSpace s.cfg

/-- `k` steps, ending at the first stop. -/
def steps : Nat → State → Host.Outcome State Fault Refusal
  | 0, s => .next s
  | k + 1, s =>
    match step s with
    | .next t => steps k t
    | .fault r => .fault r
    | .refused r => .refused r

/-- The outputs of the first `k` steps from `s`, in order; a stop ends the list. -/
def outputsOf : Nat → State → List Output
  | 0, _ => []
  | k + 1, s =>
    match step s with
    | .next t => t.outs ++ outputsOf k t
    | .fault _ | .refused _ => []

/-- The bytes handed to the bus engine among outputs, in order. -/
def bytesOut : List Output → List Byte
  | [] => []
  | .busOut v :: rest => v :: bytesOut rest
  | .response _ :: rest | .memRead _ :: rest | .memWrite _ _ :: rest | .busCmd _ :: rest
  | .call _ _ _ :: rest | .done _ _ :: rest | .readBusy _ :: rest | .readResult _ :: rest
  | .readDesc _ :: rest => bytesOut rest

/-- The reference of the registered handler (spec/10_state.md R33). -/
def handlerRef (sel : HandlerSel) (s : State) : Nat :=
  match sel with
  | .rx => s.srt.rxRef
  | .tx => s.srt.txRef

/-- The transaction in flight in `s` has been delivered `r` in `t`, by the notifications `given` or by the stored
result (spec/43_gate_and_commands.md R190). -/
def deliveredAs (r : ResCode) (s t : State) (given : List ResCode) : Prop :=
  t.busy = false ∧ t.desc.cbValid = false ∧
    if s.desc.cbValid then t.desc.result = s.desc.result ∧ given = [r] else t.desc.result = r ∧ given = []

/-- A stimulus that can open a transaction. -/
def Stimulus.isRequest : Stimulus → Bool
  | .request _ | .callSync _ => true
  | .event _ | .config _ | .reset _ _ | .hostRead _ | .wait | .hostWrite _ _ | .engineInit => false

/-- The stimuli of address no-acknowledges, each followed by the repeated start that answers it. -/
def retryScript : List (BusEvent × BusEvent) → List Stimulus
  | [] => []
  | (refusal, restart) :: rest => .event refusal :: .event restart :: retryScript rest

/-- A bus event with nothing from the environment but its status word. -/
def plainEvent (status : Byte) : Stimulus := .event ⟨status, 0, ⟨false, none, []⟩, []⟩

/-- A bus event that brings one input byte. -/
def inputEvent (status input : Byte) : Stimulus := .event ⟨status, input, ⟨false, none, []⟩, []⟩

end Sys2Proof.Machine
end

