-- ==== Sys2Proof/Laws/Ops.lean ====
section
/-! SUPPORT. One lemma per shared operation: everything it can do. -/

namespace Sys2Proof.Machine

/-! ### Operands -/

theorem hostAddr_lt (c : Config) (b o : Nat) : hostAddr c b o < 2 ^ c.addrW :=
  Nat.mod_lt _ (Nat.two_pow_pos _)

/-- `LEN_W` is the smallest width that holds 0 to `BUF_CAP`. -/
theorem bufCap_lt_lenWidth (c : Config) : c.bufCap < 2 ^ lenWidth c := Nat.lt_log2_self

theorem lenWidth_le_bufCap {c : Config} (h : 1 ≤ c.bufCap) : 2 ^ (lenWidth c - 1) ≤ c.bufCap :=
  Nat.log2_self_le (by omega)

theorem maxTries_lt_triesWidth (c : Config) : c.maxTries < 2 ^ triesWidth c := Nat.lt_log2_self

@[simp] theorem fitBuffer_length (c : Config) (l : List Byte) : (fitBuffer c l).length = c.bufCap := by
  simp [fitBuffer]
  omega

theorem bufByte_of_getElem? {d : Desc} {i : Nat} {b : Byte} (h : d.buf[i]? = some b) : bufByte d i = b := by
  simp [bufByte, h]

/-! ### Outputs -/

@[simp] theorem busCmds_append (l m : List Output) : busCmds (l ++ m) = busCmds l ++ busCmds m := by
  induction l with
  | nil => rfl
  | cons x l ih => cases x <;> simp [busCmds, ih]

@[simp] theorem notices_append (l m : List Output) : notices (l ++ m) = notices l ++ notices m := by
  induction l with
  | nil => rfl
  | cons x l ih => cases x <;> simp [notices, ih]

theorem issuedCmd_append (l m : List Output) :
    issuedCmd (l ++ m) = (issuedCmd m).or (issuedCmd l) := by
  induction l with
  | nil => simp [issuedCmd]
  | cons x l ih =>
    cases x <;> simp [issuedCmd, ih]

theorem issuedCmd_eq_getLast (l : List Output) : issuedCmd l = (busCmds l).getLast? := by
  induction l with
  | nil => rfl
  | cons x l ih => cases x <;> simp [issuedCmd, busCmds, ih, List.getLast?_cons]

/-! ### Host requests -/

/-- The copy loop: the reads in order, the bytes in place, nothing else. -/
theorem copySource_spec (src n i : Nat) (s : State) :
    ∃ buf, copySource src n i s =
        { s with
          desc := { s.desc with buf := buf }
          outs := s.outs ++ (List.range' i n).map fun j => .memRead (hostAddr s.cfg src j) } ∧
      buf.length = s.desc.buf.length ∧
      ∀ k, buf[k]? =
        if i ≤ k ∧ k < i + n ∧ k < s.desc.buf.length then some (s.mem.read (hostAddr s.cfg src k))
        else s.desc.buf[k]? := by
  induction n generalizing i s with
  | zero => exact ⟨s.desc.buf, by simp [copySource], rfl, fun k => by rw [if_neg (by omega)]⟩
  | succ n ih =>
    obtain ⟨buf, hb, hl, hk⟩ := ih (i + 1) (copyByte src i s)
    refine ⟨buf, ?_, ?_, fun k => ?_⟩
    · rw [copySource, hb]
      simp [copyByte, List.range'_succ, setDesc, emit]
    · simpa [copyByte] using hl
    · rw [hk k]
      simp only [copyByte, setDesc_desc, setDesc_cfg, setDesc_mem, emit_desc, emit_cfg, emit_mem,
        List.length_set, List.getElem?_set]
      by_cases h : i = k
      · subst h
        rw [if_neg (by omega), if_pos rfl]
        split
        · rw [if_pos (by omega)]
        · rw [if_neg (by omega), eq_comm, List.getElem?_eq_none (by omega)]
      · rw [if_neg h]
        split
        · rw [if_pos (by omega)]
        · rw [if_neg (by omega)]

/-- With `busy = 1` a request is answered BUSY, whatever it asks. -/
theorem hostRequest_busy {s : State} (h : s.busy = true) (r : RawReq) :
    hostRequest r s = respond .busy s := by
  unfold hostRequest
  split <;> simp [sendRequest, receiveRequest, acceptCheck, h]

/-- A request that fails the acceptance check leaves only its response. -/
theorem hostRequest_refused {r : RawReq} {s : State} {code : ResCode}
    (h : requestCheck s.busy s.cfg.bufCap r = some code) : hostRequest r s = respond code s := by
  unfold requestCheck at h
  unfold hostRequest
  split <;> rename_i hd <;> rw [hd] at h <;> simp only [sendRequest, receiveRequest, h]

/-- Requests of which none passes the acceptance check leave only their responses, one each, in order. -/
theorem hostRequests_refused {l : List RawReq} {codes : List ResCode} {s : State}
    (h : l.map (requestCheck s.busy s.cfg.bufCap) = codes.map some) :
    hostRequests l s = { s with outs := s.outs ++ codes.map .response } := by
  induction l generalizing codes s with
  | nil =>
    cases codes with
    | nil => simp [hostRequests]
    | cons c codes => simp at h
  | cons r l ih =>
    cases codes with
    | nil => simp at h
    | cons c codes =>
      simp only [List.map_cons, List.cons.injEq] at h
      have h2 := ih (s := respond c s) h.2
      simp only [hostRequests, List.foldl_cons, hostRequest_refused h.1] at h2 ⊢
      rw [h2]
      simp [respond, emit]

theorem requestCheck_busy (cap : Nat) (r : RawReq) : requestCheck true cap r = some .busy := by
  simp [requestCheck, acceptCheck]

/-- With `busy = 1` every request is answered BUSY. -/
theorem map_requestCheck_busy (cap : Nat) (l : List RawReq) :
    l.map (requestCheck true cap) = (l.map fun _ => ResCode.busy).map some := by
  induction l with
  | nil => rfl
  | cons r l ih => simp only [List.map_cons, requestCheck_busy, ih]

/-- The callback's requests leave only their BUSY responses. -/
theorem runCallback_busy {s : State} (h : s.busy = true) :
    runCallback s = { s with outs := s.outs ++ s.env.callback.map fun _ => .response .busy } := by
  rw [runCallback, hostRequests_refused (codes := s.env.callback.map fun _ => .busy)]
  · simp
  · rw [h, map_requestCheck_busy]

/-! ### The gate -/

/-- Whatever `Deliver` does, it touches `cb_valid`, `result`, `busy` and the outputs after the command only. -/
theorem deliver_frame (r : ResCode) (s : State) :
    ∃ res post, deliver r s =
        { s with
          desc := { s.desc with cbValid := s.desc.cbValid && !s.busy, result := res }
          busy := false
          outs := s.outs ++ post } ∧
      (∀ o ∈ post, o.afterCommand = true) ∧
      (s.busy = false → res = s.desc.result ∧ post = []) ∧
      (s.busy = true → s.desc.cbValid = false → res = r ∧ post = []) ∧
      (s.busy = true → s.desc.cbValid = true → res = s.desc.result ∧
        post = .done r s.desc.cbRef :: s.env.callback.map fun _ => .response .busy) := by
  unfold deliver
  split
  · rename_i hb
    split
    · rename_i hc
      refine ⟨s.desc.result, .done r s.desc.cbRef :: s.env.callback.map fun _ => .response .busy, ?_, ?_, ?_⟩
      · have hb' : (notify r (setCbValid false s).desc.cbRef (setCbValid false s)).busy = true := hb
        simp only [runCallback_busy hb']
        simp [setBusy, notify, emit, setCbValid, setDesc, hc, hb]
      · intro o ho
        rcases List.mem_cons.1 ho with rfl | ho
        · rfl
        · obtain ⟨_, _, rfl⟩ := List.mem_map.1 ho
          rfl
      · simp [hb, hc]
    · rename_i hc
      exact ⟨r, [], by simp [setBusy, setResult, setDesc, hc, hb], by simp, by simp [hb, hc]⟩
  · rename_i hb
    exact ⟨s.desc.result, [], by cases s; simp_all, by simp, by simp [hb]⟩

/-! ### Handler calls -/

/-- A handler that starts no transaction: its requests are all refused. -/
theorem handlerStartsRequest_false {sel : HandlerSel} {s : State} (hv : handlerValid sel s = true)
    (h : handlerStartsRequest sel s = false) :
    ∃ codes : List ResCode, s.env.reply.requests.map (requestCheck s.busy s.cfg.bufCap) = codes.map some := by
  simp only [handlerStartsRequest, hv, Bool.true_and, List.any_eq_false] at h
  generalize s.env.reply.requests = l at h
  induction l with
  | nil => exact ⟨[], rfl⟩
  | cons r l ih =>
    obtain ⟨codes, hc⟩ := ih fun x hx => h x (by simp [hx])
    obtain ⟨c, hr⟩ : ∃ c, requestCheck s.busy s.cfg.bufCap r = some c := by
      have := h r (by simp)
      cases hq : requestCheck s.busy s.cfg.bufCap r <;> simp_all
    exact ⟨c :: codes, by simp [hr, hc]⟩

/-- The converse: refused requests start nothing. -/
theorem handlerStartsRequest_of_refused {sel : HandlerSel} {s : State} {codes : List ResCode}
    (h : s.env.reply.requests.map (requestCheck s.busy s.cfg.bufCap) = codes.map some) :
    handlerStartsRequest sel s = false := by
  simp only [handlerStartsRequest]
  generalize s.env.reply.requests = l at h
  have key : (l.any fun r => (requestCheck s.busy s.cfg.bufCap r).isNone) = false := by
    induction l generalizing codes with
    | nil => rfl
    | cons r l ih =>
      cases codes with
      | nil => simp at h
      | cons c codes =>
        simp only [List.map_cons, List.cons.injEq] at h
        simp [h.1, ih h.2]
  simp [key]

/-- What a registered handler does: the byte it queues, then the responses to its requests. -/
theorem handlerRuns_refused {s : State} {codes : List ResCode}
    (h : s.env.reply.requests.map (requestCheck s.busy s.cfg.bufCap) = codes.map some) :
    handlerRuns s =
      { s with
        bei := { s.bei with output := s.env.reply.out.getD s.bei.output }
        outs := s.outs ++ s.env.reply.out.toList.map .busOut ++ codes.map .response } := by
  cases ho : s.env.reply.out with
  | none =>
    have h1 : handlerOut s = s := by simp [handlerOut, ho]
    rw [handlerRuns, h1, hostRequests_refused h]
    simp
  | some v =>
    have h1 : handlerOut s = busOut v s := by simp [handlerOut, ho]
    rw [handlerRuns, h1, hostRequests_refused (s := busOut v s) h]
    simp [busOut, emit]

/-- A slave rule that completes is the state it names, and its handler started no transaction. -/
theorem slaveRule_next {sel : HandlerSel} {s t u : State} (h : slaveRule sel s u = .next t) :
    handlerStartsRequest sel s = false ∧ t = u := by
  unfold slaveRule at h
  split at h
  · cases h
  · cases h
    exact ⟨Bool.eq_false_of_not_eq_true ‹_›, rfl⟩

/-- What a handler call can put out: the call, a byte for the engine, a refusal of a request the handler issues. -/
def HandlerOutput (s : State) (o : Output) : Prop :=
  (∃ b, o = .busOut b) ∨ (∃ sel ref a, o = .call sel ref a) ∨
    (s.env.reply.requests ≠ [] ∧ (o = .response .busy ∨ o = .response .badParameter))

theorem HandlerOutput.before {s : State} {o : Output} (h : HandlerOutput s o) : o.beforeCommand = true := by
  rcases h with ⟨b, rfl⟩ | ⟨sel, ref, a, rfl⟩ | ⟨-, rfl | rfl⟩ <;> rfl

/-- The two ends of the acceptance check. -/
theorem acceptCheck_some {b : Bool} {cap len : Nat} {dir : Dir} {addr : BusAddr} {code : ResCode}
    (h : acceptCheck b cap dir addr len = some code) : code = .busy ∨ code = .badParameter := by
  unfold acceptCheck at h
  split_ifs at h <;> simp_all

/-- A call of a registered handler that starts no transaction: these outputs and the output byte only. -/
theorem handlerRuns_frame {sel : HandlerSel} {s : State} (ref : Nat) (a : Action) (hv : handlerValid sel s = true)
    (h : handlerStartsRequest sel s = false) :
    ∃ v pre, handlerRuns (emit (.call sel ref a) s) =
        { s with bei := { s.bei with output := v }, outs := s.outs ++ pre } ∧
      ∀ o ∈ pre, HandlerOutput s o := by
  obtain ⟨codes, hc⟩ := handlerStartsRequest_false hv h
  refine ⟨s.env.reply.out.getD s.bei.output,
    .call sel ref a :: (s.env.reply.out.toList.map .busOut ++ codes.map .response), ?_, ?_⟩
  · rw [handlerRuns_refused (s := emit (.call sel ref a) s) hc]
    simp [emit]
  · intro o ho
    simp only [List.mem_cons, List.mem_append, List.mem_map] at ho
    rcases ho with rfl | ⟨b, -, rfl⟩ | ⟨r, hr, rfl⟩
    · exact .inr (.inl ⟨_, _, _, rfl⟩)
    · exact .inl ⟨b, rfl⟩
    · have hm : some r ∈ s.env.reply.requests.map (requestCheck s.busy s.cfg.bufCap) := by
        rw [hc]
        exact List.mem_map_of_mem hr
      obtain ⟨q, hq, hqr⟩ := List.mem_map.1 hm
      refine .inr (.inr ⟨List.ne_nil_of_mem hq, ?_⟩)
      rcases acceptCheck_some hqr with rfl | rfl
      · exact .inl rfl
      · exact .inr rfl

/-- A call of the receive handler that starts no transaction. -/
theorem callRx_frame (a : Action) (s : State) (h : handlerStartsRequest .rx s = false) :
    ∃ v pre, (callRx a s).2 = { s with bei := { s.bei with output := v }, outs := s.outs ++ pre } ∧
      ∀ o ∈ pre, HandlerOutput s o := by
  unfold callRx
  split
  · exact handlerRuns_frame (sel := .rx) _ a ‹_› h
  · exact ⟨s.bei.output, [], by simp, by simp⟩

/-- A call of the transmit handler: the same. -/
theorem callTx_frame (a : Action) (s : State) (h : handlerStartsRequest .tx s = false) :
    ∃ v pre, (callTx a s).2 = { s with bei := { s.bei with output := v }, outs := s.outs ++ pre } ∧
      ∀ o ∈ pre, HandlerOutput s o := by
  unfold callTx
  split
  · exact handlerRuns_frame (sel := .tx) _ a ‹_› h
  · exact ⟨s.bei.output, [], by simp, by simp⟩

theorem answer_cases (r : Bool × State) :
    answer r = busCmd .ack r.2 ∨ answer r = busCmd .nack r.2 := by
  unfold answer
  split
  · exact .inl rfl
  · exact .inr rfl

/-! ### The receive store -/

/-- The guarded store: nothing, or one byte at `storeAddr` and the index one up. -/
theorem storeInput_cases (s : State) :
    (s.desc.dir = .read ∧ s.desc.idx < s.desc.len ∧
      storeInput s =
        { s with
          desc := { s.desc with idx := s.desc.idx + 1 }
          mem := s.mem.write (storeAddr s) s.bei.input
          outs := s.outs ++ [.memWrite (storeAddr s) s.bei.input] }) ∨
    (¬(s.desc.dir = .read ∧ s.desc.idx < s.desc.len) ∧ storeInput s = s) := by
  unfold storeInput
  split
  · rename_i h
    simp only [mayStore, Bool.and_eq_true, decide_eq_true_eq] at h
    exact .inl ⟨h.1, h.2, rfl⟩
  · rename_i h
    simp only [mayStore, Bool.and_eq_true, decide_eq_true_eq] at h
    exact .inr ⟨h, rfl⟩

end Sys2Proof.Machine
end

