-- ==== Sys2Proof/Laws/Exec.lean ====
section
/-! SUPPORT. What the meanings can do: every instruction takes a next state unless a handler starts a transaction, and the case
lemmas of the shared parts of the master rules. -/

namespace Sys2Proof.Machine

theorem slaveRule_cases (sel : HandlerSel) (s t : State) :
    slaveRule sel s t = .next t ∨ (handlerStartsRequest sel s = true ∧
      slaveRule sel s t = .refused .handlerRequestAccepted) := by
  unfold slaveRule
  split
  · exact .inr ⟨‹_›, rfl⟩
  · exact .inl rfl

/-- The rules are total (spec/41_master_events.md R153): an instruction stops only where a handler starts a
transaction, which U12 of spec/93_implementation_defined.md refuses. -/
theorem exec_next_or_refused (i : Instr) (s : State) :
    (∃ t, exec i s = .next t) ∨
      (i.isSlave = true ∧ (∃ sel, handlerStartsRequest sel s = true) ∧
        exec i s = .refused .handlerRequestAccepted) := by
  have key : ∀ (sel : HandlerSel) (t : State), exec i s = slaveRule sel s t → i.isSlave = true →
      (∃ t, exec i s = .next t) ∨ (i.isSlave = true ∧ (∃ sel, handlerStartsRequest sel s = true) ∧
        exec i s = .refused .handlerRequestAccepted) := by
    intro sel t ht hi
    rw [ht]
    rcases slaveRule_cases sel s t with h | ⟨h1, h2⟩
    · exact .inl ⟨t, h⟩
    · exact .inr ⟨hi, ⟨sel, h1⟩, h2⟩
  cases i
  case srSlaAck => exact key .rx _ rfl rfl
  case srGcallAck => exact key .rx _ rfl rfl
  case srData80 => exact key .rx _ rfl rfl
  case srData90 => exact key .rx _ rfl rfl
  case srStop => exact key .rx _ rfl rfl
  case stSlaAck => exact key .tx _ rfl rfl
  case stDataAck => exact key .tx _ rfl rfl
  case stLastAck => exact key .tx _ rfl rfl
  case stDataNack => exact key .tx _ rfl rfl
  all_goals exact .inl ⟨_, rfl⟩

/-- What `sendNext` does (R143, R144). -/
theorem sendNext_cases (s : State) :
    (s.desc.idx < s.desc.len ∧
      sendNext s =
        { s with
          desc := { s.desc with idx := s.desc.idx + 1 }
          bei := { s.bei with output := bufByte s.desc s.desc.idx, cmd := 4 }
          outs := s.outs ++ [.busOut (bufByte s.desc s.desc.idx), .busCmd .nack] }) ∨
    (s.desc.len ≤ s.desc.idx ∧ sendNext s = deliver .ok (busCmd .stop s)) := by
  unfold sendNext
  split
  · rename_i h
    exact .inl ⟨by simpa [moreRemain] using h, by simp [busCmd, setIdx, setDesc, busOut, emit, Cmd.code]⟩
  · rename_i h
    exact .inr ⟨by simpa [moreRemain] using h, rfl⟩

/-- What `addressRefused` does (R145, R148): the subtraction saturates at 0. -/
theorem addressRefused_cases (s : State) :
    (1 < s.desc.tries ∧
      addressRefused s =
        { s with
          desc := { s.desc with tries := s.desc.tries - 1 }
          bei := { s.bei with cmd := 1 }
          outs := s.outs ++ [.busCmd .start] }) ∨
    (s.desc.tries ≤ 1 ∧
      addressRefused s =
        deliver .notFound
          { s with
            desc := { s.desc with tries := 0 }
            bei := { s.bei with cmd := 2 }
            outs := s.outs ++ [.busCmd .stop] }) := by
  by_cases h0 : s.desc.tries = 0
  · refine .inr ⟨by omega, ?_⟩
    have hd : s.desc = { s.desc with tries := 0 } := by rw [← h0]
    simp only [addressRefused, spendRetry, retriesRemain, h0, lt_irrefl, decide_false, Bool.false_eq_true,
      if_false]
    simp only [busCmd, emit, Cmd.code, ← hd]
  · by_cases h1 : s.desc.tries = 1
    · exact .inr ⟨by omega, by
        simp [addressRefused, spendRetry, retriesRemain, h1, busCmd, emit, Cmd.code, setTries, setDesc]⟩
    · exact .inl ⟨by omega, by
        simp [addressRefused, spendRetry, retriesRemain, busCmd, emit, Cmd.code, setTries, setDesc,
          show 0 < s.desc.tries by omega, show 1 < s.desc.tries by omega]⟩

/-- The same case split for `MT_DATA_NACK` (R146). -/
theorem execMtDataNack_cases (s : State) :
    (1 < s.desc.idx ∧ execMtDataNack s = .next (deliver .aborted (busCmd .stop s))) ∨
    (s.desc.idx ≤ 1 ∧ execMtDataNack s = .next (deliver .rejected (busCmd .stop s))) := by
  unfold execMtDataNack
  by_cases h : 1 < s.desc.idx
  · exact .inl ⟨h, by simp [someAccepted, h]⟩
  · exact .inr ⟨by omega, by simp [someAccepted, h]⟩

end Sys2Proof.Machine
end

