-- ==== Sys2Proof/Laws/Effect.lean ====
section
/-! SUPPORT. The inversion lemmas of `exec`: everything an event row and everything a host request can do. Later
proofs cite them and unfold no meaning. -/

namespace Sys2Proof.Machine

/-! ### Lists of outputs -/

theorem busCmds_pre {l : List Output} (h : ∀ o ∈ l, o.beforeCommand = true) : busCmds l = [] := by
  induction l with
  | nil => rfl
  | cons x l ih =>
    have h1 := h x (by simp)
    have := ih fun o ho => h o (by simp [ho])
    cases x <;> simp_all [busCmds, Output.beforeCommand]

theorem busCmds_post {l : List Output} (h : ∀ o ∈ l, o.afterCommand = true) : busCmds l = [] := by
  induction l with
  | nil => rfl
  | cons x l ih =>
    have h1 := h x (by simp)
    have := ih fun o ho => h o (by simp [ho])
    cases x <;> simp_all [busCmds, Output.afterCommand]

theorem notices_pre {l : List Output} (h : ∀ o ∈ l, o.beforeCommand = true) : notices l = [] := by
  induction l with
  | nil => rfl
  | cons x l ih =>
    have h1 := h x (by simp)
    have := ih fun o ho => h o (by simp [ho])
    cases x <;> simp_all [notices, Output.beforeCommand]

theorem notices_resp (l : List RawReq) : notices (l.map fun _ => .response .busy) = [] := by
  induction l <;> simp_all [notices]

theorem bytesOut_append (l m : List Output) : bytesOut (l ++ m) = bytesOut l ++ bytesOut m := by
  induction l with
  | nil => rfl
  | cons x l ih => cases x <;> simp [bytesOut, ih]

theorem bytesOut_post {l : List Output} (h : ∀ o ∈ l, o.afterCommand = true) : bytesOut l = [] := by
  induction l with
  | nil => rfl
  | cons x l ih =>
    have h1 := h x (by simp)
    have := ih fun o ho => h o (by simp [ho])
    cases x <;> simp_all [bytesOut, Output.afterCommand]

theorem memReads_cmds (c : Config) (src : Nat) (l : List Nat) :
    busCmds (l.map fun j => Output.memRead (hostAddr c src j)) = [] := by
  induction l <;> simp_all [busCmds]

theorem memReads_notices (c : Config) (src : Nat) (l : List Nat) :
    notices (l.map fun j => Output.memRead (hostAddr c src j)) = [] := by
  induction l <;> simp_all [notices]

/-! ### Event rows -/

/-- Everything the meaning of an event row can do: `pre` before its command `c`, `post` after it. -/
structure EventEffect (i : Instr) (s t : State) (pre : List Output) (c : Cmd) (post : List Output) : Prop where
  outs : t.outs = s.outs ++ pre ++ [.busCmd c] ++ post
  cmd : t.bei.cmd = c.code
  pre_ok : ∀ o ∈ pre, o.beforeCommand = true
  post_ok : ∀ o ∈ post, o.afterCommand = true
  /-- The fields that may change; every other one is that of `s`. -/
  rest : ∃ idx tries cbv res v m b, t =
    { s with
      desc := { s.desc with idx := idx, tries := tries, cbValid := cbv, result := res }
      bei := { s.bei with output := v, cmd := c.code }
      mem := m
      busy := b
      outs := t.outs }
  idx : t.desc.idx = s.desc.idx ∨
    (t.desc.idx = s.desc.idx + 1 ∧ s.desc.idx < s.desc.len ∧
      i ∈ [Instr.mtSlaAck, .mtDataAck, .mrDataAck, .mrDataNack])
  tries : t.desc.tries = s.desc.tries ∨
    (t.desc.tries + 1 = s.desc.tries ∧ i ∈ [Instr.mtSlaNack, .mrSlaNack])
  mem : t.mem = s.mem ∨
    (t.mem = s.mem.write (storeAddr s) s.bei.input ∧ (i = .mrDataAck ∨ i = .mrDataNack) ∧
      s.desc.dir = .read ∧ s.desc.idx < s.desc.len ∧ t.desc.idx = s.desc.idx + 1)
  /-- The gate did not act, or it ended the transaction by a notification or a stored result (R190). -/
  gate : (t.busy = s.busy ∧ t.desc.cbValid = s.desc.cbValid ∧ t.desc.result = s.desc.result ∧ post = []) ∨
    (s.busy = true ∧ t.busy = false ∧ (c = .stop ∨ c = .reset) ∧
      (i ∈ [Instr.mtSlaAck, .mtDataAck, .mtSlaNack, .mrSlaNack, .mtDataNack, .mrDataNack] ∨
        i.event = some .other) ∧
      t.desc.cbValid = false ∧
      ∃ r : ResCode, r.deliverable = true ∧
        ((s.desc.cbValid = true ∧ t.desc.result = s.desc.result ∧
            post = .done r s.desc.cbRef :: s.env.callback.map fun _ => .response .busy) ∨
          (s.desc.cbValid = false ∧ t.desc.result = r ∧ post = [])))
  start : c = .start ↔ ((i = .mtSlaNack ∨ i = .mrSlaNack) ∧ 1 < s.desc.tries) ∨ i = .arbLost
  slave : i.isSlave = true →
    (∀ o ∈ pre, HandlerOutput s o) ∧ post = [] ∧ t.desc = s.desc ∧ t.busy = s.busy ∧ t.mem = s.mem

/-- An effect with some outputs and some command. -/
def HasEffect (i : Instr) (s t : State) : Prop := ∃ pre c post, EventEffect i s t pre c post

/-- The rules that do not deliver: outputs, one command, nothing else. -/
theorem hasEffect_plain (i : Instr) (s t : State) (c : Cmd) (pre : List Output) (v : Byte)
    (hst : c = .start ↔ ((i = .mtSlaNack ∨ i = .mrSlaNack) ∧ 1 < s.desc.tries) ∨ i = .arbLost)
    (hpre : ∀ o ∈ pre, o.beforeCommand = true)
    (hmw : i.isSlave = true → ∀ o ∈ pre, HandlerOutput s o)
    (ht : t =
      { s with bei := { s.bei with output := v, cmd := c.code }, outs := s.outs ++ pre ++ [.busCmd c] }) :
    HasEffect i s t := by
  subst ht
  exact ⟨pre, c, [], by simp, rfl, hpre, by simp, ⟨_, _, _, _, _, _, _, rfl⟩, .inl rfl, .inl rfl, .inl rfl,
    .inl ⟨rfl, rfl, rfl, rfl⟩, hst, fun h => ⟨hmw h, rfl, rfl, rfl, rfl⟩⟩

/-- A command alone, not START. -/
theorem hasEffect_cmd (i : Instr) (s : State) {c : Cmd} (hc : c ≠ .start)
    (hst : ¬(((i = .mtSlaNack ∨ i = .mrSlaNack) ∧ 1 < s.desc.tries) ∨ i = .arbLost)) :
    HasEffect i s (busCmd c s) :=
  hasEffect_plain i s _ c [] s.bei.output ⟨fun h => absurd h hc, fun h => absurd h hst⟩ (by simp) (by simp)
    (by simp [busCmd, emit])

/-- The terminal rules: `u` is `s` after the outputs and the command, and the gate follows. -/
theorem hasEffect_deliver (i : Instr) (s u : State) (c : Cmd) (pre : List Output) (r : ResCode)
    (hi : i ∈ [Instr.mtSlaAck, .mtDataAck, .mtSlaNack, .mrSlaNack, .mtDataNack, .mrDataNack] ∨
      i.event = some .other)
    (hns : i.isSlave = false) (hr : r.deliverable = true) (hc : c = .stop ∨ c = .reset)
    (hst : ¬(((i = .mtSlaNack ∨ i = .mrSlaNack) ∧ 1 < s.desc.tries) ∨ i = .arbLost))
    (hpre : ∀ o ∈ pre, o.beforeCommand = true)
    (hu : ∃ idx tries m, u =
      { s with
        desc := { s.desc with idx := idx, tries := tries }
        mem := m
        outs := s.outs ++ pre ++ [.busCmd c]
        bei := { s.bei with cmd := c.code } })
    (hidx : u.desc.idx = s.desc.idx ∨
      (u.desc.idx = s.desc.idx + 1 ∧ s.desc.idx < s.desc.len ∧
        i ∈ [Instr.mtSlaAck, .mtDataAck, .mrDataAck, .mrDataNack]))
    (htries : u.desc.tries = s.desc.tries ∨
      (u.desc.tries + 1 = s.desc.tries ∧ i ∈ [Instr.mtSlaNack, .mrSlaNack]))
    (hmem : u.mem = s.mem ∨
      (u.mem = s.mem.write (storeAddr s) s.bei.input ∧ (i = .mrDataAck ∨ i = .mrDataNack) ∧
        s.desc.dir = .read ∧ s.desc.idx < s.desc.len ∧ u.desc.idx = s.desc.idx + 1)) :
    HasEffect i s (deliver r u) := by
  obtain ⟨idx, tries, m, hu⟩ := hu
  obtain ⟨res, post, h, ha, h1, h2, h3⟩ := deliver_frame r u
  have hbu : u.busy = s.busy := by rw [hu]
  have hcu : u.desc.cbValid = s.desc.cbValid := by rw [hu]
  have hru : u.desc.result = s.desc.result := by rw [hu]
  refine ⟨pre, c, post, by rw [h, hu], by rw [h, hu], hpre, ha, by rw [h, hu]; exact ⟨_, _, _, _, _, _, _, rfl⟩,
    by rw [h]; exact hidx, by rw [h]; exact htries, by rw [h]; exact hmem, ?_,
    ⟨fun e => by subst e; simp at hc, fun e => absurd e hst⟩, fun e => by rw [hns] at e; cases e⟩
  rw [h]
  cases hb : s.busy
  · rw [hb] at hbu
    obtain ⟨q1, q2⟩ := h1 hbu
    exact .inl ⟨rfl, by simp [hbu, hcu], q1.trans hru, q2⟩
  · rw [hb] at hbu
    refine .inr ⟨rfl, rfl, hc, hi, by simp [hbu], r, hr, ?_⟩
    cases hcb : s.desc.cbValid
    · exact .inr ⟨rfl, h2 hbu (hcu.trans hcb)⟩
    · obtain ⟨q1, q2⟩ := h3 hbu (hcu.trans hcb)
      exact .inl ⟨rfl, q1.trans hru, by rw [q2, hu]⟩

/-- The rules that ask a handler, and the rules that tell it. -/
theorem hasEffect_call (i : Instr) (s : State) (p : Bool × State)
    (hst : ¬(((i = .mtSlaNack ∨ i = .mrSlaNack) ∧ 1 < s.desc.tries) ∨ i = .arbLost))
    (hp : ∃ v pre, p.2 = { s with bei := { s.bei with output := v }, outs := s.outs ++ pre } ∧
      ∀ o ∈ pre, HandlerOutput s o) :
    HasEffect i s (answer p) ∧ ∀ c : Cmd, c ≠ .start → HasEffect i s (busCmd c p.2) := by
  obtain ⟨v, pre, h, hm⟩ := hp
  have key : ∀ c : Cmd, c ≠ .start → HasEffect i s (busCmd c p.2) := fun c hc =>
    hasEffect_plain i s _ c pre v ⟨fun e => absurd e hc, fun e => absurd e hst⟩
      (fun o ho => (hm o ho).before) (fun _ => hm) (by rw [h]; rfl)
  refine ⟨?_, key⟩
  rcases answer_cases p with h' | h' <;> rw [h']
  · exact key .ack (by simp)
  · exact key .nack (by simp)

/-- MT_SLA_ACK and MT_DATA_ACK. -/
theorem sendNext_effect {i : Instr} (s : State) (hi : i = .mtSlaAck ∨ i = .mtDataAck) :
    HasEffect i s (sendNext s) := by
  rcases sendNext_cases s with ⟨h1, h2⟩ | ⟨-, h2⟩ <;> rw [h2]
  · exact ⟨[.busOut (bufByte s.desc s.desc.idx)], .nack, [], by simp, rfl, by simp [Output.beforeCommand],
      by simp, ⟨_, _, _, _, _, _, _, rfl⟩, .inr ⟨rfl, h1, by rcases hi with rfl | rfl <;> simp⟩, .inl rfl,
      .inl rfl, .inl ⟨rfl, rfl, rfl, rfl⟩, by rcases hi with rfl | rfl <;> simp,
      by rcases hi with rfl | rfl <;> simp [Instr.isSlave, Instr.event, Event.slaveClass]⟩
  · exact hasEffect_deliver i s _ .stop [] .ok (.inl (by rcases hi with rfl | rfl <;> simp))
      (by rcases hi with rfl | rfl <;> rfl) rfl (.inl rfl) (by rcases hi with rfl | rfl <;> simp) (by simp)
      ⟨s.desc.idx, s.desc.tries, s.mem, by simp [busCmd, emit]⟩ (.inl rfl) (.inl rfl) (.inl rfl)

/-- MT_SLA_NACK and MR_SLA_NACK. -/
theorem addressRefused_effect {i : Instr} (s : State) (hi : i = .mtSlaNack ∨ i = .mrSlaNack) :
    HasEffect i s (addressRefused s) := by
  rcases addressRefused_cases s with ⟨h1, h2⟩ | ⟨h1, h2⟩ <;> rw [h2]
  · exact ⟨[], .start, [], by simp, rfl, by simp, by simp, ⟨_, _, _, _, _, _, _, rfl⟩, .inl rfl,
      .inr ⟨by simp only []; omega, by rcases hi with rfl | rfl <;> simp⟩, .inl rfl,
      .inl ⟨rfl, rfl, rfl, rfl⟩, by rcases hi with rfl | rfl <;> simp [h1],
      by rcases hi with rfl | rfl <;> simp [Instr.isSlave, Instr.event, Event.slaveClass]⟩
  · exact hasEffect_deliver i s _ .stop [] .notFound (.inl (by rcases hi with rfl | rfl <;> simp))
      (by rcases hi with rfl | rfl <;> rfl) rfl (.inl rfl)
      (by rcases hi with rfl | rfl <;> simp <;> omega) (by simp)
      ⟨s.desc.idx, 0, s.mem, by simp [Cmd.code]⟩ (.inl rfl)
      (by rcases hi with rfl | rfl <;> simp <;> omega) (.inl rfl)

/-- The rows that decode to OTHER. -/
theorem catchAll_effect {i : Instr} (s : State) (hi : i.event = some .other) : HasEffect i s (catchAll s) :=
  hasEffect_deliver i s _ .reset [] .unknown (.inr hi) (by simp [Instr.isSlave, hi, Event.slaveClass]) rfl
    (.inr rfl) (by rintro (⟨rfl | rfl, _⟩ | rfl) <;> simp [Instr.event] at hi) (by simp)
    ⟨s.desc.idx, s.desc.tries, s.mem, by simp [busCmd, emit]⟩ (.inl rfl) (.inl rfl) (.inl rfl)

/-- START and REP_START. -/
theorem sendAddress_effect {i : Instr} (s : State) (hi : i = .start ∨ i = .repStart) :
    HasEffect i s (sendAddress s) :=
  hasEffect_plain i s _ .ack [.busOut (addrByte s.desc.addr s.desc.dir)] (addrByte s.desc.addr s.desc.dir)
    (by rcases hi with rfl | rfl <;> simp) (by simp [Output.beforeCommand])
    (by rcases hi with rfl | rfl <;> simp [Instr.isSlave, Instr.event, Event.slaveClass])
    (by simp [sendAddress, busCmd, busOut, emit])

/-- MT_DATA_NACK. -/
theorem mtDataNack_effect {s t : State} (h : execMtDataNack s = .next t) : HasEffect .mtDataNack s t := by
  have key : ∀ r : ResCode, r.deliverable = true → HasEffect .mtDataNack s (deliver r (busCmd .stop s)) :=
    fun r hr => hasEffect_deliver _ s _ .stop [] r (.inl (by simp)) rfl hr (.inl rfl) (by simp) (by simp)
      ⟨s.desc.idx, s.desc.tries, s.mem, by simp [busCmd, emit]⟩ (.inl rfl) (.inl rfl) (.inl rfl)
  rcases execMtDataNack_cases s with ⟨-, h2⟩ | ⟨-, h2⟩ <;> (rw [h2] at h; cases h; exact key _ rfl)

/-- MR_DATA_ACK: the command is not START. -/
theorem mrDataAck_effect (s : State) {c : Cmd} (hc : c ≠ .start) :
    HasEffect .mrDataAck s (busCmd c (storeInput s)) := by
  rcases storeInput_cases s with ⟨h1, h2, h3⟩ | ⟨-, h3⟩ <;> rw [h3]
  · exact ⟨[.memWrite (storeAddr s) s.bei.input], c, [], by simp, rfl, by simp [Output.beforeCommand], by simp,
      ⟨_, _, _, _, _, _, _, rfl⟩, .inr ⟨rfl, h2, by simp⟩, .inl rfl, .inr ⟨rfl, .inl rfl, h1, h2, rfl⟩,
      .inl ⟨rfl, rfl, rfl, rfl⟩, by simp [hc], by simp [Instr.isSlave, Instr.event, Event.slaveClass]⟩
  · exact hasEffect_cmd _ s hc (by simp)

/-- MR_DATA_NACK. -/
theorem mrDataNack_effect (s : State) : HasEffect .mrDataNack s (deliver .ok (busCmd .stop (storeInput s))) := by
  rcases storeInput_cases s with ⟨h1, h2, h3⟩ | ⟨-, h3⟩ <;> rw [h3]
  · exact hasEffect_deliver _ s _ .stop [.memWrite (storeAddr s) s.bei.input] .ok (.inl (by simp)) rfl rfl
      (.inl rfl) (by simp) (by simp [Output.beforeCommand])
      ⟨s.desc.idx + 1, s.desc.tries, s.mem.write (storeAddr s) s.bei.input, by simp [busCmd, emit]⟩
      (.inr ⟨rfl, h2, by simp⟩) (.inl rfl) (.inr ⟨rfl, .inr rfl, h1, h2, rfl⟩)
  · exact hasEffect_deliver _ s _ .stop [] .ok (.inl (by simp)) rfl rfl (.inl rfl) (by simp) (by simp)
      ⟨s.desc.idx, s.desc.tries, s.mem, by simp [busCmd, emit]⟩ (.inl rfl) (.inl rfl) (.inl rfl)

/-- What an event row does, whichever it is. -/
theorem exec_event {i : Instr} {s t : State} (hi : i.isEvent = true) (h : exec i s = .next t) :
    HasEffect i s t := by
  cases i
  case send => cases hi
  case receive => cases hi
  case mtDataNack => exact mtDataNack_effect h
  case srSlaAck =>
    obtain ⟨hc, rfl⟩ := slaveRule_next h
    exact (hasEffect_call _ s _ (by simp) (callRx_frame _ s hc)).1
  case srGcallAck =>
    obtain ⟨hc, rfl⟩ := slaveRule_next h
    exact (hasEffect_call _ s _ (by simp) (callRx_frame _ s hc)).1
  case stSlaAck =>
    obtain ⟨hc, rfl⟩ := slaveRule_next h
    exact (hasEffect_call _ s _ (by simp) (callTx_frame _ s hc)).1
  case stDataAck =>
    obtain ⟨hc, rfl⟩ := slaveRule_next h
    exact (hasEffect_call _ s _ (by simp) (callTx_frame _ s hc)).1
  case srData80 =>
    obtain ⟨hc, rfl⟩ := slaveRule_next h
    exact (hasEffect_call _ s _ (by simp) (callRx_frame _ s hc)).2 .ack (by simp)
  case srData90 =>
    obtain ⟨hc, rfl⟩ := slaveRule_next h
    exact (hasEffect_call _ s _ (by simp) (callRx_frame _ s hc)).2 .ack (by simp)
  case srStop =>
    obtain ⟨hc, rfl⟩ := slaveRule_next h
    exact (hasEffect_call _ s _ (by simp) (callRx_frame _ s hc)).2 .release (by simp)
  case stLastAck =>
    obtain ⟨hc, rfl⟩ := slaveRule_next h
    exact (hasEffect_call _ s _ (by simp) (callTx_frame _ s hc)).2 .release (by simp)
  case stDataNack =>
    obtain ⟨hc, rfl⟩ := slaveRule_next h
    exact (hasEffect_call _ s _ (by simp) (callTx_frame _ s hc)).2 .release (by simp)
  all_goals cases h
  case start => exact sendAddress_effect s (.inl rfl)
  case repStart => exact sendAddress_effect s (.inr rfl)
  case mtSlaAck => exact sendNext_effect s (.inl rfl)
  case mtDataAck => exact sendNext_effect s (.inr rfl)
  case mtSlaNack => exact addressRefused_effect s (.inl rfl)
  case mrSlaNack => exact addressRefused_effect s (.inr rfl)
  case arbLost =>
    exact hasEffect_plain _ s _ .start [] s.bei.output (by simp) (by simp) (by simp) (by simp [busCmd, emit])
  case mrSlaAck => split <;> exact hasEffect_cmd _ s (by simp) (by simp)
  case mrDataAck => split <;> exact mrDataAck_effect s (by simp)
  case mrDataNack => exact mrDataNack_effect s
  all_goals exact catchAll_effect s rfl

theorem EventEffect.cmds {i : Instr} {s t : State} {pre post : List Output} {c : Cmd}
    (h : EventEffect i s t pre c post) : busCmds t.outs = busCmds s.outs ++ [c] := by
  rw [h.outs]
  simp [busCmds_pre h.pre_ok, busCmds_post h.post_ok, busCmds]

theorem EventEffect.notices_eq {i : Instr} {s t : State} {pre post : List Output} {c : Cmd}
    (h : EventEffect i s t pre c post) : notices t.outs = notices s.outs ++ notices post := by
  rw [h.outs]
  simp [notices_pre h.pre_ok, notices]

/-! ### Host requests -/

/-- The other end of the acceptance check. -/
theorem acceptCheck_none {b : Bool} {cap len : Nat} {dir : Dir} {addr : BusAddr}
    (h : acceptCheck b cap dir addr len = none) : b = false ∧ 1 ≤ len ∧ len ≤ cap := by
  unfold acceptCheck at h
  split_ifs at h <;> simp_all
  omega

/-- What a host request does: one refusal response and nothing else, or the accept step (R120 to R124). -/
theorem exec_request {i : Instr} {s t : State} (hi : i.isEvent = false) (h : exec i s = .next t) :
    (∃ code, (code = .busy ∨ code = .badParameter) ∧ t = { s with outs := s.outs ++ [.response code] }) ∨
    (s.busy = false ∧
      ∃ (addr : BusAddr) (dir : Dir) (buf : List Byte) (ptr len ref : Nat) (cb : Bool) (new : List Output),
        ((i = .send cb addr len ptr ref ∧ dir = .write) ∨ (i = .receive cb addr len ptr ref ∧ dir = .read)) ∧
        1 ≤ len ∧ len ≤ s.cfg.bufCap ∧ buf.length = s.desc.buf.length ∧
        (∀ k, len ≤ k → buf[k]? = s.desc.buf[k]?) ∧ (dir = .read → buf = s.desc.buf) ∧
        busCmds new = [.start] ∧ notices new = [] ∧ Output.response .accepted ∈ new ∧
        t = { s with
          desc := { s.desc with
            addr := addr, dir := dir, buf := buf, dst := if dir = .read then ptr else s.desc.dst, len := len,
            idx := 0, tries := s.cfg.maxTries, cbValid := cb, cbRef := ref }
          busy := true
          accepted := true
          bei := { s.bei with cmd := 1 }
          outs := s.outs ++ new }) := by
  cases i
  case send cb addr len src ref =>
    cases h
    unfold sendRequest
    split
    · exact .inl ⟨_, acceptCheck_some ‹_›, rfl⟩
    · rename_i hc
      obtain ⟨hb, h1, h2⟩ := acceptCheck_none hc
      obtain ⟨buf, hcopy, hl, hk⟩ := copySource_spec src len 0 s
      refine .inr ⟨hb, addr, .write, buf, src, len, ref, cb,
        ((List.range' 0 len).map fun j => .memRead (hostAddr s.cfg src j)) ++ [.busCmd .start, .response .accepted],
        .inl ⟨rfl, rfl⟩, h1, h2, hl, fun k h => by rw [hk, if_neg (by omega)], by simp, ?_, ?_, by simp, ?_⟩
      · simp [memReads_cmds, busCmds]
      · simp [memReads_notices, notices]
      · simp [acceptSend, hcopy, armStart, respond, busCmd, emit, setBusy, setDesc, Cmd.code]
  case receive cb addr len dst ref =>
    cases h
    unfold receiveRequest
    split
    · exact .inl ⟨_, acceptCheck_some ‹_›, rfl⟩
    · rename_i hc
      obtain ⟨hb, h1, h2⟩ := acceptCheck_none hc
      refine .inr ⟨hb, addr, .read, s.desc.buf, dst, len, ref, cb, [.busCmd .start, .response .accepted],
        .inr ⟨rfl, rfl⟩, h1, h2, rfl, fun _ _ => rfl, fun _ => rfl, rfl, rfl, by simp, ?_⟩
      simp [acceptReceive, armStart, respond, busCmd, emit, setBusy, setDesc, Cmd.code]
  all_goals simp [Instr.isEvent, Instr.event] at hi

end Sys2Proof.Machine
end

