-- ==== Sys2Proof/Laws/Step.lean ====
section
/-! SUPPORT. Inversion of a step: if it answers a next state, one of these nine things happened. -/

namespace Sys2Proof.Machine

theorem onNext_eq_next {f : State → State} {o : Host.Outcome State Fault Refusal} {t : State}
    (h : onNext f o = .next t) : ∃ u, o = .next u ∧ t = f u := by
  cases o <;> simp_all [onNext]

/-- One step taken off a run. -/
theorem steps_succ {k : Nat} {s t : State} (h : step s = .next t) : steps (k + 1) s = steps k t := by
  rw [steps, h]

theorem outputsOf_succ {k : Nat} {s t : State} (h : step s = .next t) :
    outputsOf (k + 1) s = t.outs ++ outputsOf k t := by
  rw [outputsOf, h]

/-- A request that decodes is the instruction of its header, its operands within their widths. -/
theorem decode_request {c : Config} {r : RawReq} {i : Instr} (h : decode c (.request r) = .ok i) :
    i = r.toInstr ∧ c.addrFits r.ptr = true ∧ c.refFits r.cbRef = true := by
  simp only [decode] at h
  split_ifs at h with h1 h2
  cases h
  exact ⟨rfl, by simpa using h1, by simpa using h2⟩

/-- What the decoder yields is well formed. -/
theorem toInstr_wf {c : Config} {r : RawReq} (ha : c.addrFits r.ptr = true) (hr : c.refFits r.cbRef = true) :
    r.toInstr.wf c = true := by
  unfold RawReq.toInstr
  split <;> simp [Instr.wf, ha, hr]

/-- The row an event decodes to stands for that event. -/
theorem eventRow_event (e : Event) (code : Byte) : (eventRow e code).event = some e := by
  cases e
  case srData => simp only [eventRow]; split <;> rfl
  case other => simp only [eventRow]; split <;> rfl
  all_goals rfl

/-- A status word stands for the event `STATUS_DECODE` gives it. -/
theorem decodeStatus_event (c : Config) (w : Byte) : (decodeStatus c w).event = some (statusEvent c w) :=
  eventRow_event _ _

/-- An event row carries no operand. -/
theorem wf_of_isEvent (c : Config) {i : Instr} (h : i.isEvent = true) : i.wf c = true := by
  cases i <;> first | rfl | cases h

/-- The instruction of a word whose event has one row only. -/
theorem decodeStatus_of_event {c : Config} {w : Byte} {e : Event} {i : Instr} (h : statusEvent c w = e)
    (hi : ∀ code, eventRow e code = i) : decodeStatus c w = i := by
  rw [decodeStatus, h, hi]

theorem runRequest_next {r : RawReq} {s t : State} (h : runRequest r s = .next t) :
    ∃ u, decode s.cfg (.request r) = .ok r.toInstr ∧ exec r.toInstr (openRequest s) = .next u ∧
      t = closeRequest u := by
  unfold runRequest at h
  split at h
  · rename_i i hi
    obtain ⟨u, hu, rfl⟩ := onNext_eq_next h
    obtain ⟨rfl, -, -⟩ := decode_request hi
    exact ⟨u, hi, hu, rfl⟩
  · cases h

/-- Everything a step can do. -/
theorem step_cases {s t : State} (h : step s = .next t) :
    ∃ x rest, s.inputs = x :: rest ∧
      ((∃ e u, x = .event e ∧
          exec (decodeStatus s.cfg e.status) (openEvent e (takeStimulus rest s)) = .next u ∧
          t = closeEvent (decodeStatus s.cfg e.status) u) ∨
        (∃ r, x = .request r ∧ runRequest r (takeStimulus rest s) = .next t) ∨
        (∃ r u, x = .callSync r ∧
          runRequest { r with header := r.header &&& 0x0FF } (takeStimulus rest s) = .next u ∧
          t = blockCaller u) ∨
        (∃ r, x = .config r ∧ r.wf s.cfg = true ∧ t = configStep r (takeStimulus rest s)) ∨
        (∃ d q, x = .reset d q ∧ t = resetStep d q (takeStimulus rest s)) ∨
        (∃ w, x = .hostRead w ∧ t = readStep w (takeStimulus rest s)) ∨
        (x = .wait ∧ t = waitStep (takeStimulus rest s)) ∨
        (∃ a v, x = .hostWrite a v ∧ t = hostWriteStep a v (takeStimulus rest s)) ∨
        (x = .engineInit ∧ t = engineInitStep (takeStimulus rest s))) := by
  unfold step at h
  split at h
  · cases h
  · rename_i x rest hx
    refine ⟨x, rest, hx, ?_⟩
    cases x with
    | event e =>
      obtain ⟨u, hu, ht⟩ := onNext_eq_next h
      exact .inl ⟨e, u, rfl, hu, ht⟩
    | request r => exact .inr (.inl ⟨r, rfl, h⟩)
    | callSync r =>
      obtain ⟨u, hu, ht⟩ := onNext_eq_next h
      exact .inr (.inr (.inl ⟨r, u, rfl, hu, ht⟩))
    | config r =>
      refine .inr (.inr (.inr (.inl ⟨r, rfl, ?_⟩)))
      simp only [runStimulus, runConfig, CfgRec.decode] at h
      split at h
      · rename_i c hc
        split at hc
        · rename_i hw
          cases hc
          cases h
          exact ⟨hw, rfl⟩
        · cases hc
      · cases h
    | reset d q => cases h; exact .inr (.inr (.inr (.inr (.inl ⟨d, q, rfl, rfl⟩))))
    | hostRead w => cases h; exact .inr (.inr (.inr (.inr (.inr (.inl ⟨w, rfl, rfl⟩)))))
    | wait => cases h; exact .inr (.inr (.inr (.inr (.inr (.inr (.inl ⟨rfl, rfl⟩))))))
    | hostWrite a v => cases h; exact .inr (.inr (.inr (.inr (.inr (.inr (.inr (.inl ⟨a, v, rfl, rfl⟩)))))))
    | engineInit => cases h; exact .inr (.inr (.inr (.inr (.inr (.inr (.inr (.inr ⟨rfl, rfl⟩)))))))

/-! ### What the step adds -/

theorem closeEvent_eq (i : Instr) (s : State) : ∃ g, closeEvent i s = { s with eng := g } := by
  unfold closeEvent
  split
  · exact ⟨_, rfl⟩
  · exact ⟨s.eng, rfl⟩

theorem closeRequest_eq (s : State) : ∃ g, closeRequest s = { s with eng := g } := by
  unfold closeRequest
  split
  · exact ⟨_, rfl⟩
  · exact ⟨s.eng, rfl⟩

theorem blockCaller_eq (s : State) : ∃ xs, blockCaller s = { s with inputs := xs } := by
  unfold blockCaller
  split
  · exact ⟨_, rfl⟩
  · exact ⟨s.inputs, rfl⟩

theorem decodeStatus_isEvent (c : Config) (w : Byte) : (decodeStatus c w).isEvent = true := by
  simp [Instr.isEvent, decodeStatus_event]

theorem toInstr_isEvent (r : RawReq) : r.toInstr.isEvent = false := by
  unfold RawReq.toInstr
  split <;> rfl

/-- An event step whose rule answers `u`: only the engine's own state is left to follow. -/
theorem step_event {s u : State} {e : BusEvent} {rest : List Stimulus} {i : Instr}
    (hx : s.inputs = .event e :: rest) (hd : decodeStatus s.cfg e.status = i)
    (he : exec i (openEvent e (takeStimulus rest s)) = .next u) : ∃ g, step s = .next { u with eng := g } := by
  obtain ⟨g, hg⟩ := closeEvent_eq i u
  exact ⟨g, by simp only [step, hx, runStimulus, runEvent, takeStimulus_cfg, hd, he, onNext, hg]⟩

end Sys2Proof.Machine
end

