-- ==== Sys2Proof/Certificates/Slice0/Obligations.lean ====
section
/-! DEFINITION. The statements for the provers. Each docstring names the rule of spec/ it formalises. States are
quantified without restriction, parameters among them; where a statement needs a clause of the invariant it takes
that clause as a premise, and `StepKeepsTheInvariant` states the invariant itself. -/

open Sys2Proof Sys2Proof.Machine

/-! ### Encodings -/

/-- R91, R92, R93: under the default table every status word decodes, by `w & 0xF8` alone, to the event of its row.
The numbers are PRESUMED by the spec itself, "from general knowledge, not in source" (log 12). -/
def Obligations.StatusWordsDecodeByTheTable : Prop :=
  ∀ c : Config, c.statusDecode = statusTable →
    ∀ row ∈ ([(0x00, .other), (0x08, .start), (0x10, .repStart), (0x18, .mtSlaAck), (0x20, .mtSlaNack),
      (0x28, .mtDataAck), (0x30, .mtDataNack), (0x38, .arbLost), (0x40, .mrSlaAck), (0x48, .mrSlaNack),
      (0x50, .mrDataAck), (0x58, .mrDataNack), (0x60, .srSlaAck), (0x68, .other), (0x70, .srGcallAck),
      (0x78, .other), (0x80, .srData), (0x88, .other), (0x90, .srData), (0x98, .other), (0xA0, .srStop),
      (0xA8, .stSlaAck), (0xB0, .other), (0xB8, .stDataAck), (0xC0, .stDataNack), (0xC8, .stLastAck),
      (0xD0, .other), (0xD8, .other), (0xE0, .other), (0xE8, .other), (0xF0, .other),
      (0xF8, .other)] : List (Byte × Event)),
    ∀ w : Byte, w &&& 0xF8 = row.1 → statusEvent c w = row.2

/-- R7, 92_eei_decisions.md D5, R91, R93: the decode table is a parameter. Whatever legal table the configuration
holds, a word decodes by `w & 0xF8` to the event of its row, and to OTHER where no row assigns it; the instruction it
decodes to stands for that event. -/
def Obligations.DecodeTableIsAParameter : Prop :=
  ∀ (c : Config) (w : Byte), c.wf = true →
    (∀ row ∈ c.statusDecode, row.1 = w &&& 0xF8 → statusEvent c w = row.2) ∧
    ((∀ row ∈ c.statusDecode, row.1 ≠ w &&& 0xF8) → statusEvent c w = .other) ∧
    ∃ i, decode c (.status w) = .ok i ∧ i.event = some (statusEvent c w)

/-- Decode and encode agree (R91, R92, R95, R96): no bit of an encoding is dropped, for every instruction and
every operand its widths admit. A status row needs a table that gives its word its event; the default table gives
every row its event. -/
def Obligations.DecodeOfEncodeIsIdentity : Prop :=
  ∀ (c : Config) (i : Instr), i.wf c = true →
    ((∀ w, encode i = .status w → i.event = some (statusEvent c w)) → decode c (encode i) = .ok i) ∧
    (c.statusDecode = statusTable → decode c (encode i) = .ok i)

/-- The other direction: under the default table, what a word decodes to encodes to that word, the ignored status
bits cleared (R91, R92, R95). -/
def Obligations.EncodeOfDecodeIsTheWord : Prop :=
  (∀ (c : Config) (w : Byte), c.statusDecode = statusTable → encode (decodeStatus c w) = .status (w &&& 0xF8)) ∧
  ∀ r : RawReq, encode r.toInstr = .request r

/-- R95: bit 0 of the header is the direction, bits 7 to 1 the address, bit 8 `cb`; bits 7 to 0 equal the address
byte; every header is legal. -/
def Obligations.RequestHeaderLayout : Prop :=
  ∀ (c : Config) (r : RawReq), c.addrFits r.ptr = true → c.refFits r.cbRef = true →
    ∃ (cb : Bool) (addr : BusAddr) (dir : Dir),
      decode c (.request r) =
        .ok (match dir with
          | .write => .send cb addr r.len r.ptr r.cbRef
          | .read => .receive cb addr r.len r.ptr r.cbRef) ∧
      r.header.toNat % 2 = (match dir with | .write => 0 | .read => 1) ∧
      r.header.toNat / 2 % 128 = addr.toNat ∧
      r.header.toNat / 256 = (if cb then 1 else 0) ∧
      (addrByte addr dir).toNat = r.header.toNat % 256

/-- Words written out from the encodings of R92 and R95 decode to what they stand for. The numbers of the six status
words are those of R92, PRESUMED by the spec itself (log 12). -/
def Obligations.SampleWordsDecode : Prop :=
  decode Config.t0 (.status 0b00001011) = .ok .start ∧
  decode Config.t0 (.status 0b00011000) = .ok .mtSlaAck ∧
  decode Config.t0 (.status 0b01011000) = .ok .mrDataNack ∧
  decode Config.t0 (.status 0b10010000) = .ok .srData90 ∧
  decode Config.t0 (.status 0b11001111) = .ok .stLastAck ∧
  decode Config.t0 (.status 0b10001000) = .ok .other88 ∧
  decode Config.t0 (.request ⟨0b010100000, 2, 0x0200, 0⟩) = .ok (.send false 0x50 2 0x0200 0) ∧
  decode Config.t0 (.request ⟨0b111010001, 3, 0x0100, 7⟩) = .ok (.receive true 0x68 3 0x0100 7)

/-- The code tables of R98, R99 and R100, and that no command has code 0 or 7. -/
def Obligations.InterfaceCodes : Prop :=
  [Cmd.start, .stop, .ack, .nack, .release, .reset].map Cmd.code = [1, 2, 3, 4, 5, 6] ∧
  (∀ c : Cmd, c.code ≠ 0 ∧ c.code ≠ 7) ∧
  [ResCode.ok, .notFound, .rejected, .aborted, .busy, .badParameter, .unknown, .accepted].map ResCode.code =
    [0, 1, 2, 3, 4, 5, 6, 7] ∧
  [Action.sessionStart, .bcastSessionStart, .data, .sessionEnd, .moreRequested].map Action.code =
    [0, 1, 2, 3, 4] ∧
  HandlerSel.rx.bit = 0 ∧ HandlerSel.tx.bit = 1

/-! ### The step -/

/-- R140: an event step decodes the status word and runs the rule of that instruction, on the state with the
event's words in the interface registers, and lets the engine proceed afterwards. -/
def Obligations.EventStepRunsDecodedInstruction : Prop :=
  ∀ (s : State) (e : BusEvent) (rest : List Stimulus) (i : Instr),
    s.inputs = .event e :: rest → decode s.cfg (.status e.status) = .ok i →
    i = decodeStatus s.cfg e.status ∧
    step s =
      match exec i (openEvent e (takeStimulus rest s)) with
      | .next t => .next (closeEvent i t)
      | .fault r => .fault r
      | .refused r => .refused r

/-- What an event step adds around the rule: before it the status word, the input byte and the environment's
answers are presented (R66, R75, R140) and the bookkeeping of logs 15 and 17 is done; after it only the engine's
own state changes (R37, R215). -/
def Obligations.EventStepFraming : Prop :=
  ∀ (s : State) (e : BusEvent) (rest : List Stimulus) (i : Instr),
    (∃ m, openEvent e (takeStimulus rest s) =
      { s with
        inputs := rest
        outs := []
        bei := { s.bei with status := e.status, input := e.input }
        env := { reply := e.reply, callback := e.callback }
        bootWindow := false
        leftContract := m }) ∧
    (∃ g, closeEvent i s = { s with eng := g }) ∧ ∃ g, closeRequest s = { s with eng := g }

/-- A request step runs the SEND or RECEIVE its header names, and the engine gets the START of an accepted one
(R8, R95, R121, R122). -/
def Obligations.RequestStepRunsDecodedInstruction : Prop :=
  ∀ (s : State) (r : RawReq) (rest : List Stimulus) (i : Instr),
    s.inputs = .request r :: rest → decode s.cfg (.request r) = .ok i →
    i = r.toInstr ∧ i.wf s.cfg = true ∧
    step s =
      match exec i { s with inputs := rest, outs := [], bootWindow := false } with
      | .next t => .next (closeRequest t)
      | .fault f => .fault f
      | .refused f => .refused f

/-- Log 13: an operand that does not fit its interface (R96, R101) is refused under its own name. The model's
choice: the spec gives such a word no meaning. -/
def Obligations.OverwideOperandsAreRefused : Prop :=
  ∀ (s : State) (rest : List Stimulus),
    (∀ r, s.inputs = .request r :: rest → 2 ^ s.cfg.addrW ≤ r.ptr → step s = .refused .pointerTooWide) ∧
    (∀ r, s.inputs = .request r :: rest → r.ptr < 2 ^ s.cfg.addrW → 2 ^ s.cfg.cbW ≤ r.cbRef →
      step s = .refused .referenceTooWide) ∧
    (∀ r, s.inputs = .config r :: rest → 2 ^ s.cfg.cbW ≤ r.rxRef ∨ 2 ^ s.cfg.cbW ≤ r.txRef →
      step s = .refused .referenceTooWide)

/-! ### Host requests -/

/-- R120, R124: the order of the checks, and that a refused request does nothing but answer. -/
def Obligations.AcceptanceCheckOrder : Prop :=
  ∀ (s : State) (cb : Bool) (addr : BusAddr) (len ptr ref : Nat),
    (s.busy = true → ∀ i ∈ [Instr.send cb addr len ptr ref, .receive cb addr len ptr ref],
      exec i s = .next { s with outs := s.outs ++ [.response .busy] }) ∧
    (s.busy = false → len = 0 ∨ s.cfg.bufCap < len →
      ∀ i ∈ [Instr.send cb addr len ptr ref, .receive cb addr len ptr ref],
        exec i s = .next { s with outs := s.outs ++ [.response .badParameter] }) ∧
    (s.busy = false → 1 ≤ len → len ≤ s.cfg.bufCap → addr = 0 →
      exec (.receive cb addr len ptr ref) s = .next { s with outs := s.outs ++ [.response .badParameter] }) ∧
    (s.busy = false → 1 ≤ len → len ≤ s.cfg.bufCap →
      exec (.send cb addr len ptr ref) s = .next (acceptSend cb addr len ptr ref s) ∧
      (addr ≠ 0 → exec (.receive cb addr len ptr ref) s = .next (acceptReceive cb addr len ptr ref s)))

/-- R121: an accepted SEND copies exactly `len` source bytes in ascending order, writes the descriptor, sets
`busy`, issues START and answers ACCEPTED; nothing else changes. -/
def Obligations.AcceptedSendFillsDescriptor : Prop :=
  ∀ (s : State) (cb : Bool) (addr : BusAddr) (len src ref : Nat),
    s.busy = false → 1 ≤ len → len ≤ s.cfg.bufCap → s.desc.buf.length = s.cfg.bufCap →
    ∃ buf : List Byte,
      exec (.send cb addr len src ref) s =
        .next { s with
          desc := { s.desc with
            addr := addr, dir := .write, buf := buf, len := len, idx := 0, tries := s.cfg.maxTries,
            cbValid := cb, cbRef := ref }
          busy := true
          accepted := true
          bei := { s.bei with cmd := 1 }
          outs := s.outs ++
            ((List.range len).map fun i => .memRead ((src + i) % 2 ^ s.cfg.addrW)) ++
            [.busCmd .start, .response .accepted] } ∧
      buf.length = s.cfg.bufCap ∧
      (∀ k, k < len → buf[k]? = some (s.mem.read ((src + k) % 2 ^ s.cfg.addrW))) ∧
      ∀ k, len ≤ k → buf[k]? = s.desc.buf[k]?

/-- R122: an accepted RECEIVE writes the descriptor, sets `busy`, issues START and answers ACCEPTED; it touches
neither the buffer nor host memory. -/
def Obligations.AcceptedReceiveFillsDescriptor : Prop :=
  ∀ (s : State) (cb : Bool) (addr : BusAddr) (len dst ref : Nat),
    s.busy = false → 1 ≤ len → len ≤ s.cfg.bufCap → addr ≠ 0 →
    exec (.receive cb addr len dst ref) s =
      .next { s with
        desc := { s.desc with
          addr := addr, dir := .read, dst := dst, len := len, idx := 0, tries := s.cfg.maxTries,
          cbValid := cb, cbRef := ref }
        busy := true
        accepted := true
        bei := { s.bei with cmd := 1 }
        outs := s.outs ++ [.busCmd .start, .response .accepted] }

/-! ### The gate -/

/-- R190 with R128: the three cases of `Deliver`. In callback mode the callback's own requests are answered BUSY
before `busy` falls. -/
def Obligations.DeliverThroughTheGate : Prop :=
  ∀ (s : State) (r : ResCode),
    (s.busy = false → deliver r s = s) ∧
    (s.busy = true → s.desc.cbValid = true →
      deliver r s =
        { s with
          desc := { s.desc with cbValid := false }
          busy := false
          outs := s.outs ++ [.done r s.desc.cbRef] ++ s.env.callback.map fun _ => .response .busy }) ∧
    (s.busy = true → s.desc.cbValid = false →
      deliver r s = { s with desc := { s.desc with result := r }, busy := false })

/-- R190, R191: an event that ends a transaction either notifies or stores, never both, with a deliverable code;
one that does not end it does neither. -/
def Obligations.DeliveryIsNotifyOrStore : Prop :=
  ∀ (i : Instr) (s t : State), i.isEvent = true → s.busy = true → exec i s = .next t →
    (t.busy = false → s.desc.cbValid = true →
      t.desc.cbValid = false ∧ t.desc.result = s.desc.result ∧
      ∃ r, r.deliverable = true ∧ notices t.outs = notices s.outs ++ [r]) ∧
    (t.busy = false → s.desc.cbValid = false →
      t.desc.cbValid = false ∧ t.desc.result.deliverable = true ∧ notices t.outs = notices s.outs) ∧
    (t.busy = true →
      t.desc.cbValid = s.desc.cbValid ∧ t.desc.result = s.desc.result ∧ notices t.outs = notices s.outs)

/-- R191, R270: with no transaction in flight no event delivers anything. -/
def Obligations.IdleEventsDeliverNothing : Prop :=
  ∀ (i : Instr) (s t : State), i.isEvent = true → s.busy = false → exec i s = .next t →
    t.busy = false ∧ t.desc.cbValid = s.desc.cbValid ∧ t.desc.result = s.desc.result ∧
    notices t.outs = notices s.outs

/-- R31, R192: over whole steps, `busy` rises only where a request is answered ACCEPTED, and falls only at a reset
or in a step whose command is STOP or RESET. -/
def Obligations.BusyFlagLifecycle : Prop :=
  ∀ s t : State, step s = .next t →
    (s.busy = false → t.busy = true → Output.response .accepted ∈ t.outs ∧ busCmds t.outs = [.start]) ∧
    (s.busy = true → t.busy = false →
      busCmds t.outs = [.stop] ∨ busCmds t.outs = [.reset] ∨
      ∃ d q rest, s.inputs = .reset d q :: rest)

/-- R193: every event issues exactly one command, with calls, output bytes and stores before it and only the
delivery after it; an accepted request issues exactly START, a refused one nothing; CONFIG, reset and host reads
issue none. -/
def Obligations.OneCommandPerStep : Prop :=
  (∀ (i : Instr) (s t : State), i.isEvent = true → exec i s = .next t →
    ∃ pre c post, t.outs = s.outs ++ pre ++ [.busCmd c] ++ post ∧ t.bei.cmd = c.code ∧
      (∀ o ∈ pre, o.beforeCommand = true) ∧ ∀ o ∈ post, o.afterCommand = true) ∧
  (∀ (i : Instr) (s t : State), i.isEvent = false → exec i s = .next t →
    ∃ new, t.outs = s.outs ++ new ∧
      ((busCmds new = [.start] ∧ Output.response .accepted ∈ new ∧ t.bei.cmd = Cmd.start.code) ∨
        (busCmds new = [] ∧ t = { s with outs := s.outs ++ new }))) ∧
  (∀ (s t : State) (x : Stimulus) (rest : List Stimulus), s.inputs = x :: rest →
    ((∃ r, x = .config r) ∨ (∃ d q, x = .reset d q) ∨ ∃ w, x = .hostRead w) →
    step s = .next t → busCmds t.outs = [] ∧ t.bei = s.bei)

/-! ### Master events -/

/-- R141, R142 with the address byte of R97: START and REP_START send `2 * addr + dir` and issue ACK; nothing else
changes. The layout and the polarity, 0 for write and 1 for read, are PRESUMED by the spec itself (R22, R97,
log 24). -/
def Obligations.StartSendsAddressByte : Prop :=
  ∀ (s : State), ∀ i ∈ [Instr.start, .repStart],
    ∃ b : Byte,
      exec i s =
        .next { s with
          bei := { s.bei with output := b, cmd := 3 }
          outs := s.outs ++ [.busOut b, .busCmd .ack] } ∧
      b.toNat = 2 * s.desc.addr.toNat + (match s.desc.dir with | .write => 0 | .read => 1)

/-- R143: while bytes remain the next one is sent with NACK and the index goes up by one; else STOP and the
delivery of OK. For an index past the buffer's end the byte is free (log 11). -/
def Obligations.AddressAcknowledgedSendsByte : Prop :=
  ∀ s : State,
    (s.desc.idx < s.desc.len →
      ∃ b : Byte, (∀ x, s.desc.buf[s.desc.idx]? = some x → b = x) ∧
        exec .mtSlaAck s =
          .next { s with
            desc := { s.desc with idx := s.desc.idx + 1 }
            bei := { s.bei with output := b, cmd := 4 }
            outs := s.outs ++ [.busOut b, .busCmd .nack] }) ∧
    (s.desc.len ≤ s.desc.idx →
      exec .mtSlaAck s =
        .next (deliver .ok
          { s with bei := { s.bei with cmd := 2 }, outs := s.outs ++ [.busCmd .stop] }))

/-- R144, an inference the spec marks as its own ("derived from rule R143 and property P1"): a data byte acknowledged
has the action of R143. -/
def Obligations.DataAcknowledgedSendsByte : Prop :=
  ∀ s : State,
    (s.desc.idx < s.desc.len →
      ∃ b : Byte, (∀ x, s.desc.buf[s.desc.idx]? = some x → b = x) ∧
        exec .mtDataAck s =
          .next { s with
            desc := { s.desc with idx := s.desc.idx + 1 }
            bei := { s.bei with output := b, cmd := 4 }
            outs := s.outs ++ [.busOut b, .busCmd .nack] }) ∧
    (s.desc.len ≤ s.desc.idx →
      exec .mtDataAck s =
        .next (deliver .ok
          { s with bei := { s.bei with cmd := 2 }, outs := s.outs ++ [.busCmd .stop] }))

/-- R145, R148: the retry budget goes down by one, not below 0; while any is left START is issued, else STOP and
the delivery of NOT_FOUND. -/
def Obligations.AddressNotAcknowledgedSpendsRetry : Prop :=
  ∀ (s : State), ∀ i ∈ [Instr.mtSlaNack, .mrSlaNack],
    (1 < s.desc.tries →
      exec i s =
        .next { s with
          desc := { s.desc with tries := s.desc.tries - 1 }
          bei := { s.bei with cmd := 1 }
          outs := s.outs ++ [.busCmd .start] }) ∧
    (s.desc.tries ≤ 1 →
      exec i s =
        .next (deliver .notFound
          { s with
            desc := { s.desc with tries := 0 }
            bei := { s.bei with cmd := 2 }
            outs := s.outs ++ [.busCmd .stop] }))

/-- R146: STOP, then ABORTED if a byte before the refused one was accepted (`idx > 1`), else REJECTED. -/
def Obligations.DataNotAcknowledgedEndsTheWrite : Prop :=
  ∀ s : State,
    exec .mtDataNack s =
      .next (deliver (if 1 < s.desc.idx then .aborted else .rejected)
        { s with bei := { s.bei with cmd := 2 }, outs := s.outs ++ [.busCmd .stop] })

/-- R147: ACK if more than one byte is wanted, else NACK; no state is written. -/
def Obligations.ReadAddressAcknowledged : Prop :=
  ∀ s : State,
    (1 < s.desc.len →
      exec .mrSlaAck s =
        .next { s with bei := { s.bei with cmd := 3 }, outs := s.outs ++ [.busCmd .ack] }) ∧
    (s.desc.len ≤ 1 →
      exec .mrSlaAck s =
        .next { s with bei := { s.bei with cmd := 4 }, outs := s.outs ++ [.busCmd .nack] })

/-- R149: under its guard the byte is stored at `dst + idx` modulo `2^ADDR_W`, every other byte of memory reads as
before, the index goes up by one, and the command is NACK when at most one byte remains after the store; outside
the guard nothing is stored. -/
def Obligations.ReceivedByteIsStored : Prop :=
  ∀ s : State, s.mem.wf →
    (s.desc.dir = .read → s.desc.idx < s.desc.len →
      ∃ (m : Memory) (c : Cmd),
        exec .mrDataAck s =
          .next { s with
            desc := { s.desc with idx := s.desc.idx + 1 }
            mem := m
            bei := { s.bei with cmd := c.code }
            outs := s.outs ++
              [.memWrite ((s.desc.dst + s.desc.idx) % 2 ^ s.cfg.addrW) s.bei.input, .busCmd c] } ∧
        c = (if s.desc.len - (s.desc.idx + 1) ≤ 1 then .nack else .ack) ∧
        ∀ a, m.read a =
          if a = (s.desc.dst + s.desc.idx) % 2 ^ s.cfg.addrW then s.bei.input else s.mem.read a) ∧
    (s.desc.dir = .write ∨ s.desc.len ≤ s.desc.idx →
      ∃ c : Cmd,
        exec .mrDataAck s =
          .next { s with bei := { s.bei with cmd := c.code }, outs := s.outs ++ [.busCmd c] } ∧
        c = if s.desc.len ≤ s.desc.idx + 1 then .nack else .ack)

/-- R150: the final byte is stored under the same guard, then STOP, then the delivery of OK. -/
def Obligations.FinalByteIsStoredAndDelivered : Prop :=
  ∀ s : State, s.mem.wf →
    (s.desc.dir = .read → s.desc.idx < s.desc.len →
      ∃ m : Memory,
        exec .mrDataNack s =
          .next (deliver .ok
            { s with
              desc := { s.desc with idx := s.desc.idx + 1 }
              mem := m
              bei := { s.bei with cmd := 2 }
              outs := s.outs ++
                [.memWrite ((s.desc.dst + s.desc.idx) % 2 ^ s.cfg.addrW) s.bei.input, .busCmd .stop] }) ∧
        ∀ a, m.read a =
          if a = (s.desc.dst + s.desc.idx) % 2 ^ s.cfg.addrW then s.bei.input else s.mem.read a) ∧
    (s.desc.dir = .write ∨ s.desc.len ≤ s.desc.idx →
      exec .mrDataNack s =
        .next (deliver .ok
          { s with bei := { s.bei with cmd := 2 }, outs := s.outs ++ [.busCmd .stop] }))

/-- R151: START again, and no state written: no retry is spent, the index and `busy` stay, nothing is delivered. -/
def Obligations.ArbitrationLossRestarts : Prop :=
  ∀ s : State,
    exec .arbLost s =
      .next { s with bei := { s.bei with cmd := 1 }, outs := s.outs ++ [.busCmd .start] }

/-- R152: every row that decodes to OTHER issues RESET and delivers UNKNOWN. -/
def Obligations.CatchAllDeliversUnknown : Prop :=
  ∀ (i : Instr) (s : State), i.event = some .other →
    exec i s =
      .next (deliver .unknown
        { s with bei := { s.bei with cmd := 6 }, outs := s.outs ++ [.busCmd .reset] })

/-! ### Slave events -/

/-- R171, R172, R175, R176 with R170: a registered handler is called with the action of the event; it may queue a
byte; requests it issues are answered by the refusals of R120 (R267); ACK on accept, NACK on reject; nothing else
changes. That the byte comes before the responses is the model's choice (log 9, DESIGN CHOICE): no source orders
them. -/
def Obligations.AskedHandlerDecidesTheCommand : Prop :=
  ∀ row ∈ ([(.srSlaAck, .rx, .sessionStart), (.srGcallAck, .rx, .bcastSessionStart),
      (.stSlaAck, .tx, .sessionStart), (.stDataAck, .tx, .data)] : List (Instr × HandlerSel × Action)),
    ∀ (s : State) (refusals : List ResCode), handlerValid row.2.1 s = true →
      s.env.reply.requests.map (requestCheck s.busy s.cfg.bufCap) = refusals.map some →
      ∃ c : Cmd,
        exec row.1 s =
          .next { s with
            bei := { s.bei with output := s.env.reply.out.getD s.bei.output, cmd := c.code }
            outs := s.outs ++ [.call row.2.1 (handlerRef row.2.1 s) row.2.2] ++
              s.env.reply.out.toList.map Output.busOut ++ refusals.map Output.response ++ [.busCmd c] } ∧
        c = if s.env.reply.accept then .ack else .nack

/-- R173, R174, R177, R178: a registered handler is told, its answer is ignored: inbound data is always
acknowledged, the ends of a session always release. Requests it issues are answered by the refusals of R120 (R267);
that the byte it may queue (R170) comes before the responses is the model's choice (log 9, DESIGN CHOICE): no source
orders them. -/
def Obligations.ToldHandlerIsIgnored : Prop :=
  ∀ row ∈ ([(.srData80, .rx, .data, .ack), (.srData90, .rx, .data, .ack), (.srStop, .rx, .sessionEnd, .release),
      (.stLastAck, .tx, .moreRequested, .release), (.stDataNack, .tx, .sessionEnd, .release)] :
      List (Instr × HandlerSel × Action × Cmd)),
    ∀ (s : State) (refusals : List ResCode), handlerValid row.2.1 s = true →
      s.env.reply.requests.map (requestCheck s.busy s.cfg.bufCap) = refusals.map some →
      exec row.1 s =
        .next { s with
          bei := { s.bei with output := s.env.reply.out.getD s.bei.output, cmd := row.2.2.2.code }
          outs := s.outs ++ [.call row.2.1 (handlerRef row.2.1 s) row.2.2.1] ++
            s.env.reply.out.toList.map Output.busOut ++ refusals.map Output.response ++ [.busCmd row.2.2.2] }

/-- R267, R128: a request that a handler issues with a transaction in flight is answered BUSY and changes nothing.
With none in flight a request that passes the check of R120 would start a transaction inside the event step: R170
and R275 forbid it, and the model refuses it (93 U12, log 9). -/
def Obligations.HandlerRequestsAreBusyOrRefused : Prop :=
  ∀ row ∈ ([(.srSlaAck, .rx), (.srGcallAck, .rx), (.srData80, .rx), (.srData90, .rx), (.srStop, .rx),
      (.stSlaAck, .tx), (.stDataAck, .tx), (.stLastAck, .tx), (.stDataNack, .tx)] : List (Instr × HandlerSel)),
    ∀ s : State, handlerValid row.2 s = true →
      (s.busy = true →
        ∃ (t : State) (pre : List Output) (c : Cmd), exec row.1 s = .next t ∧
          t.outs = s.outs ++ pre ++ (s.env.reply.requests.map fun _ => .response .busy) ++ [.busCmd c] ∧
          (∀ r, Output.response r ∉ pre) ∧ t.desc = s.desc ∧ t.busy = true ∧ t.mem = s.mem) ∧
      (s.busy = false →
        (∃ r ∈ s.env.reply.requests,
          1 ≤ r.len ∧ r.len ≤ s.cfg.bufCap ∧ (r.dir = .write ∨ r.addr ≠ 0)) →
        exec row.1 s = .refused .handlerRequestAccepted)

/-- R179: with no handler registered no call is made; the answer counts as REJECT where it is used. -/
def Obligations.AbsentHandlerRejects : Prop :=
  ∀ row ∈ ([(.srSlaAck, .rx, .nack), (.srGcallAck, .rx, .nack), (.stSlaAck, .tx, .nack), (.stDataAck, .tx, .nack),
      (.srData80, .rx, .ack), (.srData90, .rx, .ack), (.srStop, .rx, .release), (.stLastAck, .tx, .release),
      (.stDataNack, .tx, .release)] : List (Instr × HandlerSel × Cmd)),
    ∀ s : State, handlerValid row.2.1 s = false →
      exec row.1 s =
        .next { s with
          bei := { s.bei with cmd := row.2.2.code }
          outs := s.outs ++ [.busCmd row.2.2] }

/-- R180: a slave event changes the interface registers and the outputs only, and puts out neither a store, nor a
read, nor a notification; a response only to a request of the handler, refused (R267). -/
def Obligations.SlaveEventsLeaveCoreState : Prop :=
  ∀ (i : Instr) (s t : State), i.isSlave = true → exec i s = .next t →
    ∃ v c new, t = { s with bei := { s.bei with output := v, cmd := c }, outs := s.outs ++ new } ∧
      ∀ o ∈ new, (∃ b, o = .busOut b) ∨ (∃ k, o = .busCmd k) ∨ (∃ sel ref a, o = .call sel ref a) ∨
        (s.env.reply.requests ≠ [] ∧ (o = .response .busy ∨ o = .response .badParameter))

/-- R181: what a slave event puts out depends on the event, the registered handlers and what they do only; `busy` and
BUF_CAP matter to the requests a handler issues and to nothing else. -/
def Obligations.SlaveEventsReadOnlyTheHandlers : Prop :=
  ∀ (i : Instr) (s s' t t' : State), i.isSlave = true →
    s.srt.rxValid = s'.srt.rxValid → s.srt.txValid = s'.srt.txValid → s.srt.rxRef = s'.srt.rxRef →
    s.srt.txRef = s'.srt.txRef → s.env.reply = s'.env.reply → s.outs = s'.outs →
    s.env.reply.requests = [] ∨ (s.busy = s'.busy ∧ s.cfg.bufCap = s'.cfg.bufCap) →
    exec i s = .next t → exec i s' = .next t' →
    t.outs = t'.outs ∧ t.bei.cmd = t'.bei.cmd

/-- R171 and the eighth property of 95_test_vectors.md: after a session start that is not accepted the engine
contract allows no inbound data event. Under another decode table the statuses R216 names by number (bus error, data
that was not acknowledged) must not stand for inbound data; under that of R92 they do not (D6). -/
def Obligations.RejectedSessionGetsNoData : Prop :=
  ∀ (s t : State) (e : BusEvent) (rest : List Stimulus),
    s.inputs = .event e :: rest →
    statusEvent s.cfg e.status = .srSlaAck ∨ statusEvent s.cfg e.status = .srGcallAck →
    s.eng.role ≠ .off → s.srt.rxValid = false ∨ e.reply.accept = false → step s = .next t →
    busCmds t.outs = [.nack] ∧
    (∀ w, statusEvent s.cfg w = .srData → statusCode w ∉ ([0x00, 0x88, 0x98] : List Byte) →
      contractAllows t w = false) ∧
    (s.cfg.statusDecode = statusTable → ∀ w, statusEvent s.cfg w = .srData → contractAllows t w = false)

/-! ### Memory and frames -/

/-- The canonical form is one form: two memories that read alike everywhere are the same data. -/
def Obligations.CanonicalMemoriesAreEqual : Prop :=
  ∀ m m' : Memory, m.wf → m'.wf → (∀ a, m.read a = m'.read a) → m = m'

/-- R60, R68: a byte of host memory changes only where a received byte is stored, and only inside the destination
buffer. -/
def Obligations.OnlyReceivedBytesReachHostMemory : Prop :=
  ∀ (i : Instr) (s t : State) (a : Nat), s.mem.wf → exec i s = .next t → t.mem.read a ≠ s.mem.read a →
    (i = .mrDataAck ∨ i = .mrDataNack) ∧ s.desc.dir = .read ∧ s.desc.idx < s.desc.len ∧
    a = (s.desc.dst + s.desc.idx) % 2 ^ s.cfg.addrW ∧ t.mem.read a = s.bei.input ∧
    t.desc.idx = s.desc.idx + 1

/-- The column "written by" of R20, with R23, R24, R26, R27, R30: each descriptor field and each flag changes only in
the instructions named for it. -/
def Obligations.DescriptorFieldsHaveTheirWriters : Prop :=
  ∀ (i : Instr) (s t : State), exec i s = .next t →
    (i.isEvent = true → t.desc.addr = s.desc.addr ∧ t.desc.dir = s.desc.dir ∧ t.desc.buf = s.desc.buf ∧
      t.desc.dst = s.desc.dst ∧ t.desc.len = s.desc.len ∧ t.desc.cbRef = s.desc.cbRef ∧
      t.accepted = s.accepted) ∧
    (i.isEvent = true → i ∉ [Instr.mtSlaAck, .mtDataAck, .mrDataAck, .mrDataNack] →
      t.desc.idx = s.desc.idx) ∧
    (i.isEvent = true → t.desc.idx = s.desc.idx ∨ (t.desc.idx = s.desc.idx + 1 ∧ s.desc.idx < s.desc.len)) ∧
    (i.isEvent = true → i ∉ [Instr.mtSlaNack, .mrSlaNack] → t.desc.tries = s.desc.tries) ∧
    (i.isEvent = true → t.desc.tries = s.desc.tries ∨ t.desc.tries + 1 = s.desc.tries) ∧
    (i.isEvent = false → t.desc.result = s.desc.result ∧ t.mem = s.mem ∧ t.bei.output = s.bei.output) ∧
    (∀ cb addr len src ref, i = .send cb addr len src ref →
      t.desc.dst = s.desc.dst ∧ ∀ k, len ≤ k → t.desc.buf[k]? = s.desc.buf[k]?) ∧
    (∀ cb addr len dst ref, i = .receive cb addr len dst ref → t.desc.buf = s.desc.buf) ∧
    (i.isEvent = true →
      i ∉ [Instr.mtSlaAck, .mtDataAck, .mtSlaNack, .mrSlaNack, .mtDataNack, .mrDataNack] →
      i.event ≠ some .other →
      t.busy = s.busy ∧ t.desc.cbValid = s.desc.cbValid ∧ t.desc.result = s.desc.result)

/-- R34, R37, R40, R66: no instruction writes the parameters, the slave table, the engine's state, the status word, the
input byte, or what the environment has still to say. -/
def Obligations.MeaningsLeaveTheEnvironment : Prop :=
  ∀ (i : Instr) (s t : State), exec i s = .next t →
    t.cfg = s.cfg ∧ t.srt = s.srt ∧ t.eng = s.eng ∧ t.env = s.env ∧ t.inputs = s.inputs ∧
    t.bei.status = s.bei.status ∧ t.bei.input = s.bei.input ∧ t.bootWindow = s.bootWindow ∧
    t.leftContract = s.leftContract

/-- R33, R37: no instruction reads the engine's hidden state, nor `enabled`, `own_addr`, `bcast` of the slave
table, nor the stimuli to come. -/
def Obligations.MeaningsIgnoreTheEngine : Prop :=
  ∀ (i : Instr) (s t : State) (g : Engine) (en bc : Bool) (own : BusAddr) (xs : List Stimulus),
    exec i s = .next t →
    exec i { s with
        eng := g, srt := { s.srt with enabled := en, ownAddr := own, bcast := bc }, inputs := xs } =
      .next { t with
        eng := g, srt := { t.srt with enabled := en, ownAddr := own, bcast := bc }, inputs := xs }

/-- R123: no event rule tests `cb_valid`; two states that differ only in the callback give the same commands,
bytes, stores and counters, and differ in the delivery alone. -/
def Obligations.CallbackModeOnlyChangesDelivery : Prop :=
  ∀ (i : Instr) (s t u : State) (cb : Bool) (ref : Nat), i.isEvent = true → exec i s = .next t →
    exec i { s with desc := { s.desc with cbValid := cb, cbRef := ref } } = .next u →
    u.bei = t.bei ∧ u.mem = t.mem ∧ u.busy = t.busy ∧ u.srt = t.srt ∧
    { u.desc with cbValid := t.desc.cbValid, cbRef := t.desc.cbRef, result := t.desc.result } = t.desc ∧
    busCmds u.outs = busCmds t.outs ∧ bytesOut u.outs = bytesOut t.outs

/-- R201: START is issued in exactly four places. -/
def Obligations.StartCommandInFourPlaces : Prop :=
  ∀ (i : Instr) (s t : State) (new : List Output), exec i s = .next t → t.outs = s.outs ++ new →
    (Cmd.start ∈ busCmds new ↔
      (i.isEvent = false ∧ s.busy = false ∧ t.busy = true) ∨
      ((i = .mtSlaNack ∨ i = .mrSlaNack) ∧ 1 < s.desc.tries) ∨ i = .arbLost)

/-! ### The other steps -/

/-- R260, R39: a reset clears the six flags and puts nothing out. Every other field of CORE is unspecified: the model's
choice (log 5, DESIGN CHOICE) is that the environment draws it, `desc.result` included, and any value of the field's
width can be the draw. Memory, the interface registers and the engine are not touched. -/
def Obligations.ResetStepClearsTheFlags : Prop :=
  ∀ (s : State) (d : Desc) (q : SlaveTable) (rest : List Stimulus), s.inputs = .reset d q :: rest →
    ∃ t, step s = .next t ∧
      t.busy = false ∧ t.desc.cbValid = false ∧ t.srt.enabled = false ∧ t.srt.bcast = false ∧
      t.srt.rxValid = false ∧ t.srt.txValid = false ∧ t.outs = [] ∧ t.mem = s.mem ∧ t.bei = s.bei ∧
      t.eng = s.eng ∧ t.cfg = s.cfg ∧ t.inputs = rest ∧
      (d.buf.length = s.cfg.bufCap → d.dst < 2 ^ s.cfg.addrW → d.len < 2 ^ lenWidth s.cfg →
        d.idx < 2 ^ lenWidth s.cfg → d.tries ≤ s.cfg.maxTries → d.cbRef < 2 ^ s.cfg.cbW →
        q.rxRef < 2 ^ s.cfg.cbW → q.txRef < 2 ^ s.cfg.cbW →
        t.desc = { d with cbValid := false } ∧
        t.srt = { q with enabled := false, bcast := false, rxValid := false, txValid := false })

/-- R126: CONFIG writes the slave table as the record says and no other field of CORE, and issues no command. -/
def Obligations.ConfigWritesTheTable : Prop :=
  ∀ (s : State) (r : CfgRec) (rest : List Stimulus), s.inputs = .config r :: rest → r.wf s.cfg = true →
    ∃ m b, step s =
      .next { s with
        srt :=
          if r.present then
            { enabled := true, ownAddr := r.ownAddr, bcast := r.bcast, rxValid := r.rxValid,
              txValid := r.txValid, rxRef := r.rxRef, txRef := r.txRef }
          else { s.srt with enabled := false, bcast := false, rxValid := false, txValid := false }
        inputs := rest
        outs := []
        bootWindow := b
        leftContract := m }

/-- R127, R237: a host read gives the value left by the step before it and changes nothing. -/
def Obligations.HostReadsChangeNothing : Prop :=
  ∀ (s : State) (rest : List Stimulus),
    (s.inputs = .hostRead .busy :: rest →
      step s = .next { s with inputs := rest, outs := [.readBusy s.busy] }) ∧
    (s.inputs = .hostRead .result :: rest →
      step s = .next { s with inputs := rest, outs := [.readResult s.desc.result] }) ∧
    (s.inputs = .hostRead .desc :: rest →
      step s = .next { s with inputs := rest, outs := [.readDesc s.desc] })

/-- R125, R104: `wait` returns at once with `busy = 0`; with `busy = 1` and neither an event nor a reset to come
the loop takes a turn and the state stays as it was, for ever (R269). -/
def Obligations.WaitSpinsWhileBusy : Prop :=
  ∀ (s : State) (rest : List Stimulus), s.inputs = .wait :: rest →
    (s.busy = false → step s = .next { s with inputs := rest, outs := [.readBusy false] }) ∧
    (s.busy = true → (∀ x ∈ rest, x.interrupts = false) →
      step s = .next { s with outs := [.readBusy true] }) ∧
    (s.busy = true → ∀ e rest', rest = .event e :: rest' →
      step s = .next { s with inputs := .event e :: .wait :: rest', outs := [.readBusy true] })

/-- R104, R123, log 18: the synchronous form is the request of the same address, direction, length and pointer with
`cb = 0`; ACCEPTED makes the caller wait and then read the result, a refusal returns at once. -/
def Obligations.SynchronousCallExpands : Prop :=
  ∀ (s : State) (r : RawReq) (rest : List Stimulus),
    s.inputs = .callSync r :: rest → s.cfg.addrFits r.ptr = true → s.cfg.refFits r.cbRef = true →
    ∃ u : State,
      exec (match r.dir with
          | .write => .send false r.addr r.len r.ptr r.cbRef
          | .read => .receive false r.addr r.len r.ptr r.cbRef)
        { s with inputs := rest, outs := [], bootWindow := false } = .next u ∧
      (Output.response .accepted ∈ u.outs →
        step s = .next { closeRequest u with inputs := .wait :: .hostRead .result :: rest } ∧
        u.busy = true ∧ u.desc.cbValid = false) ∧
      (Output.response .accepted ∉ u.outs →
        step s = .next u ∧ u.inputs = rest ∧ u.desc = s.desc ∧ u.busy = s.busy ∧
        (u.outs = [.response .busy] ∨ u.outs = [.response .badParameter]))

/-- R269, log 14: with no stimulus left a busy machine has no successor, and stays busy; an idle one waits. -/
def Obligations.SilentBusLocksUp : Prop :=
  ∀ s : State, s.inputs = [] →
    (s.busy = true → step s = .fault .lockedUp) ∧ (s.busy = false → step s = .fault .awaitingStimulus)

/-- R268: the trace START, ARB_LOST, START, ARB_LOST, ... runs at any length and changes neither `busy` nor the
descriptor and notifies nobody; no cap, no counter. The status words are any that the decode table gives the two
events. -/
def Obligations.ArbitrationStarvationNeverEnds : Prop :=
  ∀ (n : Nat) (s : State) (start lost : Byte),
    statusEvent s.cfg start = .start → statusEvent s.cfg lost = .arbLost →
    s.inputs = (List.replicate n [plainEvent start, plainEvent lost]).flatten →
    ∃ t, steps (2 * n) s = .next t ∧ t.busy = s.busy ∧ t.desc = s.desc ∧ t.inputs = [] ∧
      notices (outputsOf (2 * n) s) = []

/-- Logs 15, 17, 27, 93 U3, U7: the mark is set by an event outside the contract, by a CONFIG or a set-up of the engine
that comes late, and never cleared. The model's choice: the spec recommends the mark and gives the literal
behaviour. -/
def Obligations.MarkRecordsTheContract : Prop :=
  ∀ s t : State, step s = .next t →
    (s.leftContract = true → t.leftContract = true) ∧
    (∀ e rest, s.inputs = .event e :: rest → t.leftContract = false →
      contractAllows s e.status = true ∧ eventFits (decodeStatus s.cfg e.status) s = true) ∧
    (∀ rest, (∃ r, s.inputs = .config r :: rest) ∨ s.inputs = .engineInit :: rest → t.leftContract = false →
      s.bootWindow = true)

/-- R218: a start request pending when a slave event comes survives it exactly if `START_STICKY`. -/
def Obligations.PendingStartAcrossSession : Prop :=
  ∀ (s t : State) (e : BusEvent) (rest : List Stimulus), s.inputs = .event e :: rest →
    (decodeStatus s.cfg e.status).isSlave = true → s.eng.role ≠ .off → step s = .next t →
    t.eng.pendingStart = (s.eng.pendingStart && s.cfg.startSticky)

/-- R216, 93 U3 ("MT_SLA_ACK before any START event"), log 16: once a request is accepted the engine's start is
pending, whatever transfer it was in: the contract allows no acknowledge, no data and no arbitration event of a master
before the start condition is reported, and outside a slave session it allows that report. -/
def Obligations.PostedStartClosesTheTransfer : Prop :=
  ∀ (s t : State) (r : RawReq) (rest : List Stimulus),
    s.inputs = .request r :: rest → step s = .next t → Output.response .accepted ∈ t.outs →
    (∀ i ∈ [Instr.mtSlaAck, .mtSlaNack, .mtDataAck, .mtDataNack, .arbLost, .mrSlaAck, .mrSlaNack, .mrDataAck,
        .mrDataNack],
      engineAllows t.eng t.srt t.desc.dir i = false) ∧
    (s.eng.role ≠ .off → s.eng.role ≠ .sr → s.eng.role ≠ .st → engineAllows t.eng t.srt t.desc.dir .start = true)

/-! ### Invariants -/

/-- R38 and R32 with the widths of R20: every step from a state that meets the invariant meets it again. -/
def Obligations.StepKeepsTheInvariant : Prop :=
  ∀ s t : State, Inv s → step s = .next t → Inv t

/-- The state after reset meets the invariant. -/
def Obligations.ResetMeetsTheInvariant : Prop := Inv State.reset

/-! ### The properties of the source document (95_test_vectors.md, part 1) -/

/-- P1: a SEND of any valid length whose every byte is acknowledged ends in OK, and the bus engine gets the
address byte and then the source bytes in order. -/
def Obligations.AcknowledgedWriteEndsInOk : Prop :=
  ∀ (s : State) (addr : BusAddr) (len src : Nat) (start addrAck dataAck : Byte),
    statusEvent s.cfg start = .start → statusEvent s.cfg addrAck = .mtSlaAck →
    statusEvent s.cfg dataAck = .mtDataAck →
    s.busy = false → 1 ≤ len → len ≤ s.cfg.bufCap → s.desc.buf.length = s.cfg.bufCap →
    src < 2 ^ s.cfg.addrW →
    s.inputs =
      .request ⟨requestHeader false addr .write, len, src, 0⟩ :: plainEvent start ::
        plainEvent addrAck :: List.replicate len (plainEvent dataAck) →
    ∃ t, steps (len + 3) s = .next t ∧ t.busy = false ∧ t.desc.result = .ok ∧ t.desc.idx = len ∧
      t.inputs = [] ∧
      bytesOut (outputsOf (len + 3) s) =
        addrByte addr .write :: (List.range len).map fun k => s.mem.read ((src + k) % 2 ^ s.cfg.addrW)

/-- P4, first half: with a budget of `b + 1` left, each of `b` address no-acknowledges, of a write or of a read,
restarts the transaction, and the next one ends it with NOT_FOUND, delivered to the callback or stored (R190). -/
def Obligations.RetryBudgetEndsInNotFound : Prop :=
  ∀ (refused : List (BusEvent × BusEvent)) (last : BusEvent) (s : State),
    s.busy = true → s.desc.tries = refused.length + 1 →
    (∀ p ∈ refused, (statusEvent s.cfg p.1.status = .mtSlaNack ∨ statusEvent s.cfg p.1.status = .mrSlaNack) ∧
      statusEvent s.cfg p.2.status = .repStart) →
    statusEvent s.cfg last.status = .mtSlaNack ∨ statusEvent s.cfg last.status = .mrSlaNack →
    s.inputs = retryScript refused ++ [.event last] →
    (∃ u, steps (2 * refused.length) s = .next u ∧ u.busy = true ∧ u.desc.tries = 1 ∧
      u.desc.cbValid = s.desc.cbValid ∧ u.desc.result = s.desc.result ∧
      notices (outputsOf (2 * refused.length) s) = []) ∧
    ∃ t, steps (2 * refused.length + 1) s = .next t ∧
      deliveredAs .notFound s t (notices (outputsOf (2 * refused.length + 1) s)) ∧
      t.desc.tries = 0 ∧ t.desc.idx = s.desc.idx

/-- P4, second half: one no-acknowledge fewer than the budget, then an acknowledge and every byte of the write
acknowledged, or every byte of the read received, ends in OK. -/
def Obligations.LastRetryAcknowledgedEndsInOk : Prop :=
  ∀ (refused : List (BusEvent × BusEvent)) (ack : BusEvent) (data : List BusEvent) (s : State),
    s.busy = true → s.desc.tries = refused.length + 1 → s.desc.idx < s.desc.len →
    (∀ p ∈ refused, (statusEvent s.cfg p.1.status = .mtSlaNack ∨ statusEvent s.cfg p.1.status = .mrSlaNack) ∧
      statusEvent s.cfg p.2.status = .repStart) →
    ((statusEvent s.cfg ack.status = .mtSlaAck ∧ data.length = s.desc.len - s.desc.idx ∧
        ∀ e ∈ data, statusEvent s.cfg e.status = .mtDataAck) ∨
      (s.desc.dir = .read ∧ statusEvent s.cfg ack.status = .mrSlaAck ∧
        ∃ bytes last, data = bytes ++ [last] ∧ bytes.length + 1 = s.desc.len - s.desc.idx ∧
          (∀ e ∈ bytes, statusEvent s.cfg e.status = .mrDataAck) ∧
          statusEvent s.cfg last.status = .mrDataNack)) →
    s.inputs = retryScript refused ++ .event ack :: data.map .event →
    ∃ t, steps (2 * refused.length + 1 + data.length) s = .next t ∧
      deliveredAs .ok s t (notices (outputsOf (2 * refused.length + 1 + data.length) s)) ∧
      t.desc.tries = 1 ∧ t.desc.idx = s.desc.len

/-- P7: a RECEIVE whose bytes come in order, the last one met by a no-acknowledge, ends in OK with exactly those
bytes in the destination buffer and every other byte of memory as it was. -/
def Obligations.ReadDeliversBytesInOrder : Prop :=
  ∀ (s : State) (addr : BusAddr) (dst : Nat) (bytes : List Byte) (last : Byte)
    (start addrAck dataAck dataNack : Byte),
    statusEvent s.cfg start = .start → statusEvent s.cfg addrAck = .mrSlaAck →
    statusEvent s.cfg dataAck = .mrDataAck → statusEvent s.cfg dataNack = .mrDataNack →
    s.busy = false → s.mem.wf → addr ≠ 0 → dst < 2 ^ s.cfg.addrW →
    bytes.length + 1 ≤ s.cfg.bufCap → bytes.length + 1 ≤ 2 ^ s.cfg.addrW →
    s.inputs =
      .request ⟨requestHeader false addr .read, bytes.length + 1, dst, 0⟩ :: plainEvent start ::
        plainEvent addrAck :: (bytes.map (inputEvent dataAck) ++ [inputEvent dataNack last]) →
    ∃ t, steps (bytes.length + 4) s = .next t ∧ t.busy = false ∧ t.desc.result = .ok ∧
      t.desc.idx = bytes.length + 1 ∧ t.inputs = [] ∧
      (∀ k b, (bytes ++ [last])[k]? = some b → t.mem.read ((dst + k) % 2 ^ s.cfg.addrW) = b) ∧
      ∀ a, (∀ k, k < bytes.length + 1 → a ≠ (dst + k) % 2 ^ s.cfg.addrW) → t.mem.read a = s.mem.read a

/-- R191: in any run in which no further request comes at most one notification is given, and none if no
transaction is in flight. -/
def Obligations.OneNotificationPerTransaction : Prop :=
  ∀ (k : Nat) (s : State), (∀ x ∈ s.inputs, x.isRequest = false) →
    (notices (outputsOf k s)).length ≤ 1 ∧ (s.busy = false → notices (outputsOf k s) = [])
end

