-- ==== Sys2Proof/Laws/PerInstr.lean ====
section
/-! SUPPORT. The per-instruction family `EncodedFormat`: in which format an instruction is encoded and which bits
its row of spec/opcode_table.json fixes. -/

namespace Sys2Proof.Laws.EncodedFormat

/-- An event row is a status word whose ignored bits are 0 and which reads back as that row under the
default decode table; a request is a header
whose bit 0 is its opcode and whose low byte is the address byte (R91, R92, R95, R97). -/
def Statement (i : Instr) : Prop :=
  match encode i with
  | .status w => i.isEvent = true ∧ w &&& 0x07 = 0 ∧ decodeStatus Config.t0 w = i
  | .request r =>
    i.isEvent = false ∧ ∃ (addr : BusAddr) (dir : Dir),
      r.header.extractLsb' 0 1 = dir.bit ∧ r.header.extractLsb' 0 8 = addrByte addr dir

theorem header_low (cb : Bool) (addr : BusAddr) (dir : Dir) :
    (requestHeader cb addr dir).extractLsb' 0 1 = dir.bit ∧
      (requestHeader cb addr dir).extractLsb' 0 8 = addrByte addr dir := by
  have h : ∀ (cb : Bool) (addr : BusAddr) (d : BitVec 1),
      (BitVec.ofBool cb ++ addr ++ d).extractLsb' 0 1 = d ∧
        (BitVec.ofBool cb ++ addr ++ d).extractLsb' 0 8 = addr ++ d := by decide
  exact h cb addr dir.bit

theorem other00 : Statement .other00 := ⟨rfl, rfl, rfl⟩

theorem start : Statement .start := ⟨rfl, rfl, rfl⟩

theorem repStart : Statement .repStart := ⟨rfl, rfl, rfl⟩

theorem mtSlaAck : Statement .mtSlaAck := ⟨rfl, rfl, rfl⟩

theorem mtSlaNack : Statement .mtSlaNack := ⟨rfl, rfl, rfl⟩

theorem mtDataAck : Statement .mtDataAck := ⟨rfl, rfl, rfl⟩

theorem mtDataNack : Statement .mtDataNack := ⟨rfl, rfl, rfl⟩

theorem arbLost : Statement .arbLost := ⟨rfl, rfl, rfl⟩

theorem mrSlaAck : Statement .mrSlaAck := ⟨rfl, rfl, rfl⟩

theorem mrSlaNack : Statement .mrSlaNack := ⟨rfl, rfl, rfl⟩

theorem mrDataAck : Statement .mrDataAck := ⟨rfl, rfl, rfl⟩

theorem mrDataNack : Statement .mrDataNack := ⟨rfl, rfl, rfl⟩

theorem srSlaAck : Statement .srSlaAck := ⟨rfl, rfl, rfl⟩

theorem other68 : Statement .other68 := ⟨rfl, rfl, rfl⟩

theorem srGcallAck : Statement .srGcallAck := ⟨rfl, rfl, rfl⟩

theorem other78 : Statement .other78 := ⟨rfl, rfl, rfl⟩

theorem srData80 : Statement .srData80 := ⟨rfl, rfl, rfl⟩

theorem other88 : Statement .other88 := ⟨rfl, rfl, rfl⟩

theorem srData90 : Statement .srData90 := ⟨rfl, rfl, rfl⟩

theorem other98 : Statement .other98 := ⟨rfl, rfl, rfl⟩

theorem srStop : Statement .srStop := ⟨rfl, rfl, rfl⟩

theorem stSlaAck : Statement .stSlaAck := ⟨rfl, rfl, rfl⟩

theorem otherB0 : Statement .otherB0 := ⟨rfl, rfl, rfl⟩

theorem stDataAck : Statement .stDataAck := ⟨rfl, rfl, rfl⟩

theorem stDataNack : Statement .stDataNack := ⟨rfl, rfl, rfl⟩

theorem stLastAck : Statement .stLastAck := ⟨rfl, rfl, rfl⟩

theorem otherD0 : Statement .otherD0 := ⟨rfl, rfl, rfl⟩

theorem otherD8 : Statement .otherD8 := ⟨rfl, rfl, rfl⟩

theorem otherE0 : Statement .otherE0 := ⟨rfl, rfl, rfl⟩

theorem otherE8 : Statement .otherE8 := ⟨rfl, rfl, rfl⟩

theorem otherF0 : Statement .otherF0 := ⟨rfl, rfl, rfl⟩

theorem otherF8 : Statement .otherF8 := ⟨rfl, rfl, rfl⟩

theorem send (cb : Bool) (addr : BusAddr) (len src cbRef : Nat) : Statement (.send cb addr len src cbRef) :=
  ⟨rfl, addr, .write, header_low cb addr .write⟩

theorem receive (cb : Bool) (addr : BusAddr) (len dst cbRef : Nat) :
    Statement (.receive cb addr len dst cbRef) :=
  ⟨rfl, addr, .read, header_low cb addr .read⟩

end Sys2Proof.Laws.EncodedFormat
end

