-- ==== Sys2Proof/Tests/Slice0.lean ====
section
/-! SUPPORT. The model's own tests: the checks refuse ill-formed terms, the words of spec/opcode_table.json decode,
one step per instruction on the vectors of spec/95_test_vectors.md (V1 to V90, derived there by hand, configuration
T0), and a witness for the hypotheses of every statement. -/

namespace Sys2Proof.Tests

open Sys2Proof.Machine

/-! ### Helpers -/

/-- The descriptor of `State.reset` with the direction and the counters given. -/
def mkDesc (dir : Dir) (len idx tries : Nat) : Desc :=
  { State.reset.desc with dir := dir, len := len, idx := idx, tries := tries }

/-- A transaction in flight, one stimulus to come. -/
def flight (d : Desc) (x : Stimulus) : State :=
  { State.reset with desc := d, busy := true, accepted := true, inputs := [x] }

/-- No transaction in flight. -/
def idle (x : Stimulus) : State := { State.reset with inputs := [x] }

/-- Both handlers registered, the engine listening. -/
def slave (x : Stimulus) : State :=
  { State.reset with
    inputs := [x]
    srt := { State.reset.srt with enabled := true, ownAddr := 0x2A, bcast := true, rxValid := true, txValid := true }
    eng := { State.reset.eng with role := .idle } }

/-- A handler that issues requests during its call. -/
def asking (requests : List RawReq) : State :=
  { slave .wait with env := { reply := ⟨true, none, requests⟩, callback := [] } }

/-- The event with the handler's answer. -/
def asked (w : Byte) (accept : Bool) : Stimulus := .event ⟨w, 0, ⟨accept, none, []⟩, []⟩

def nextOf : Host.Outcome State Fault Refusal → Option State
  | .next t => some t
  | .fault _ | .refused _ => none

/-- What one step shows. -/
def see {α : Type} (f : State → α) (s : State) : Option α := (nextOf (step s)).map f

/-! ### The checks refuse -/

theorem test_wf_bufCap : Config.wf { Config.t0 with bufCap := 0 } = false := by decide
theorem test_wf_maxTries : Config.wf { Config.t0 with maxTries := 0 } = false := by decide
theorem test_wf_addrW : Config.wf { Config.t0 with addrW := 0 } = false := by decide
theorem test_wf_t0 : Config.t0.wf = true := by decide
theorem test_wf_table_low_bits :
    Config.wf { Config.t0 with statusDecode := [(0x0B, .start)] } = false := by decide
theorem test_wf_table_overlap :
    Config.wf { Config.t0 with statusDecode := [(0x08, .start), (0x08, .other)] } = false := by decide
theorem test_wf_pointer : Instr.wf Config.t0 (.send false 0x50 1 0x10000 0) = false := by decide
theorem test_wf_reference : Instr.wf Config.t0 (.send true 0x50 1 0 0x100) = false := by decide
theorem test_wf_receive_pointer : Instr.wf Config.t0 (.receive false 0x68 1 0x10000 0) = false := by decide
theorem test_wf_receive_reference : Instr.wf Config.t0 (.receive true 0x68 1 0 0x100) = false := by decide
theorem test_wf_rx_reference : CfgRec.wf Config.t0 ⟨true, 0x2A, true, true, 0x100, true, 0⟩ = false := by decide
theorem test_wf_tx_reference : CfgRec.wf Config.t0 ⟨true, 0x2A, true, true, 0, true, 0x100⟩ = false := by decide

/-! ### Decoding: every constructor from a word written out from R92 and R95 -/

theorem test_decode_start : [0b00001000, 0b00010000].map (decodeStatus Config.t0) = [.start, .repStart] := by decide
theorem test_decode_mt :
    [0b00011000, 0b00100000, 0b00101000, 0b00110000].map (decodeStatus Config.t0) =
      [.mtSlaAck, .mtSlaNack, .mtDataAck, .mtDataNack] := by decide
theorem test_decode_arbLost : decodeStatus Config.t0 0b00111000 = .arbLost := by decide
theorem test_decode_mr :
    [0b01000000, 0b01001000, 0b01010000, 0b01011000].map (decodeStatus Config.t0) =
      [.mrSlaAck, .mrSlaNack, .mrDataAck, .mrDataNack] := by decide
theorem test_decode_sr :
    [0b01100000, 0b01110000, 0b10000000, 0b10010000, 0b10100000].map (decodeStatus Config.t0) =
      [.srSlaAck, .srGcallAck, .srData80, .srData90, .srStop] := by decide
theorem test_decode_st :
    [0b10101000, 0b10111000, 0b11000000, 0b11001000].map (decodeStatus Config.t0) =
      [.stSlaAck, .stDataAck, .stDataNack, .stLastAck] := by decide
theorem test_decode_other :
    [0b00000000, 0b01101000, 0b01111000, 0b10001000, 0b10011000, 0b10110000, 0b11010000, 0b11011000, 0b11100000,
      0b11101000, 0b11110000, 0b11111000].map (decodeStatus Config.t0) =
      [.other00, .other68, .other78, .other88, .other98, .otherB0, .otherD0, .otherD8, .otherE0, .otherE8,
        .otherF0, .otherF8] := by decide
/-- V17, V20, V22, V23: bits 2 to 0 are ignored. -/
theorem test_decode_ignores_low_bits :
    [0x0B, 0x0F, 0x07, 0x93, 0xCF, 0xE7, 0xFF].map (decodeStatus Config.t0) =
      [.start, .start, .other00, .srData90, .stLastAck, .otherE0, .otherF8] := by decide
/-- The alternative of D6 as another value of the parameter: 0x68, 0x78 and 0xB0 as session starts. -/
theorem test_decode_alternative :
    [0x68, 0x78, 0xB0, 0x60].map
      (decodeStatus { Config.t0 with
        statusDecode := [(0x60, .srSlaAck), (0x68, .srSlaAck), (0x78, .srGcallAck), (0xB0, .stSlaAck)] }) =
      [.srSlaAck, .srGcallAck, .stSlaAck, .srSlaAck] := by decide
/-- R93: a value without a row. -/
theorem test_decode_unassigned :
    [0x08, 0xB8].map (decodeStatus { Config.t0 with statusDecode := [] }) = [.otherF8, .otherF8] := by decide
/-- V1, header 0x0A0. -/
theorem test_decode_send :
    decode Config.t0 (.request ⟨0b0_1010000_0, 2, 0x0200, 0⟩) = .ok (.send false 0x50 2 0x0200 0) := rfl
/-- V8, header 0x1D1. -/
theorem test_decode_receive :
    decode Config.t0 (.request ⟨0b1_1101000_1, 3, 0x0100, 7⟩) = .ok (.receive true 0x68 3 0x0100 7) := rfl
theorem test_decode_refuses_pointer :
    decode Config.t0 (.request ⟨0x0A0, 1, 0x10000, 0⟩) = .error .pointerTooWide := rfl
theorem test_decode_refuses_reference :
    decode Config.t0 (.request ⟨0x0A0, 1, 0, 0x100⟩) = .error .referenceTooWide := rfl
theorem test_table_word_status : decodeTableWord 8 0x58 = some .mrDataNack := by decide
theorem test_table_word_request : decodeTableWord 9 0x0D1 = some (.receive false 0x68 0 0 0) := by decide
theorem test_table_word_too_big : decodeTableWord 8 0x158 = none := by decide
theorem test_fetch_word_runs_next :
    see (fun t => (t.bei.status, t.outs)) (State.reset.withFetchWord 8 0x38) = some (0x38, [.busCmd .start]) := by
  decide

/-! ### Host requests -/

/-- V1. -/
theorem test_send_fills_descriptor :
    see (fun t => (t.desc.buf.take 2, t.desc.len, t.desc.tries, t.outs))
      { idle (.request ⟨0x0A0, 2, 0x0200, 0⟩) with mem := [(0x0200, 0xAA), (0x0201, 0x55)] } =
      some ([0xAA, 0x55], 2, 3,
        [.memRead 0x0200, .memRead 0x0201, .busCmd .start, .response .accepted]) := by decide
/-- V7: busy is tested before the length. -/
theorem test_send_busy_first :
    see (fun t => (t.desc.addr, t.outs)) (flight (mkDesc .write 2 0 3) (.request ⟨0x0A2, 0, 0, 0⟩)) =
      some (0, [.response .busy]) := by decide
/-- V8. -/
theorem test_receive_fills_descriptor :
    see (fun t => (t.desc.dst, t.desc.len, t.desc.cbValid, t.desc.cbRef, t.outs))
      (idle (.request ⟨0x1D1, 3, 0x0100, 7⟩)) =
      some (0x0100, 3, true, 7, [.busCmd .start, .response .accepted]) := by decide
/-- V9: the broadcast address. -/
theorem test_receive_refuses_broadcast :
    see (fun t => (t.busy, t.outs)) (idle (.request ⟨0x001, 1, 0x0100, 0⟩)) =
      some (false, [.response .badParameter]) := by decide

/-! ### Master events -/

/-- V28. -/
theorem test_start :
    see (fun t => (t.outs, t.bei.output))
      (flight { mkDesc .write 2 0 3 with addr := 0x50 } (plainEvent 0x08)) =
      some ([.busOut 0xA0, .busCmd .ack], 0xA0) := by decide
/-- V29. -/
theorem test_repStart :
    see (fun t => (t.outs, t.bei.cmd)) (flight { mkDesc .read 2 0 3 with addr := 0x68 } (plainEvent 0x10)) =
      some ([.busOut 0xD1, .busCmd .ack], 3) := by decide
/-- V32. -/
theorem test_mtSlaAck :
    see (fun t => (t.outs, t.desc.idx))
      (flight { mkDesc .write 2 0 3 with buf := [0xAA, 0x55, 0, 0, 0, 0, 0, 0] } (plainEvent 0x18)) =
      some ([.busOut 0xAA, .busCmd .nack], 1) := by decide
/-- V36. -/
theorem test_mtSlaAck_nothing_left :
    see (fun t => (t.outs, t.busy, t.desc.result)) (flight (mkDesc .write 2 2 3) (plainEvent 0x18)) =
      some ([.busCmd .stop], false, .ok) := by decide
/-- V37: the last element of the buffer. -/
theorem test_mtDataAck :
    see (fun t => (t.outs, t.desc.idx))
      (flight { mkDesc .write 8 7 3 with buf := [1, 2, 3, 4, 5, 6, 7, 8] } (plainEvent 0x28)) =
      some ([.busOut 0x08, .busCmd .nack], 8) := by decide
/-- V35. -/
theorem test_mtDataAck_notifies :
    see (fun t => (t.outs, t.busy, t.desc.cbValid, t.desc.result))
      (flight { mkDesc .write 2 2 3 with cbValid := true, cbRef := 9, result := .badParameter }
        (plainEvent 0x28)) =
      some ([.busCmd .stop, .done .ok 9], false, false, .badParameter) := by decide
/-- V38. -/
theorem test_mtSlaNack_restarts :
    see (fun t => (t.outs, t.desc.tries)) (flight (mkDesc .write 2 0 3) (plainEvent 0x20)) =
      some ([.busCmd .start], 2) := by decide
/-- V42: the decrement saturates. -/
theorem test_mtSlaNack_saturates :
    see (fun t => (t.outs, t.desc.tries, t.desc.result, t.busy))
      (flight (mkDesc .write 2 0 0) (plainEvent 0x20)) =
      some ([.busCmd .stop], 0, .notFound, false) := by decide
/-- V24. -/
theorem test_mtDataNack_rejected :
    see (fun t => (t.outs, t.desc.result, t.desc.idx)) (flight (mkDesc .write 3 1 3) (plainEvent 0x30)) =
      some ([.busCmd .stop], .rejected, 1) := by decide
/-- V25. -/
theorem test_mtDataNack_aborted :
    see (fun t => (t.outs, t.desc.result, t.busy)) (flight (mkDesc .write 3 2 3) (plainEvent 0x30)) =
      some ([.busCmd .stop], .aborted, false) := by decide
/-- V44. -/
theorem test_mrSlaAck_more :
    see (fun t => t.outs) (flight (mkDesc .read 2 0 3) (plainEvent 0x40)) = some [.busCmd .ack] := by decide
/-- V45. -/
theorem test_mrSlaAck_one :
    see (fun t => t.outs) (flight (mkDesc .read 1 0 3) (plainEvent 0x40)) = some [.busCmd .nack] := by decide
/-- V41. -/
theorem test_mrSlaNack :
    see (fun t => (t.outs, t.desc.tries, t.busy))
      (flight { mkDesc .read 2 0 1 with cbValid := true, cbRef := 4 } (plainEvent 0x48)) =
      some ([.busCmd .stop, .done .notFound 4], 0, false) := by decide
/-- V47. -/
theorem test_mrDataAck_last_byte_next :
    see (fun t => (t.outs, t.mem, t.desc.idx))
      (flight { mkDesc .read 3 1 3 with dst := 0x0100 } (inputEvent 0x50 0x22)) =
      some ([.memWrite 0x0101 0x22, .busCmd .nack], [(0x0101, 0x22)], 2) := by decide
/-- V51: a receive event during a SEND stores nothing. -/
theorem test_mrDataAck_guard :
    see (fun t => (t.outs, t.mem, t.desc.idx))
      (flight { mkDesc .write 3 1 3 with dst := 0x0100 } (inputEvent 0x50 0x99)) =
      some ([.busCmd .ack], [], 1) := by decide
/-- V49: the address wraps at `2^16`. -/
theorem test_mrDataNack_wraps :
    see (fun t => (t.outs, t.mem, t.desc.result, t.busy))
      (flight { mkDesc .read 2 1 3 with dst := 0xFFFF } (inputEvent 0x58 0x42)) =
      some ([.memWrite 0x0000 0x42, .busCmd .stop], [(0x0000, 0x42)], .ok, false) := by decide
/-- V56. -/
theorem test_arbLost :
    see (fun t => (t.outs, t.desc, t.busy)) (flight (mkDesc .write 3 2 2) (plainEvent 0x38)) =
      some ([.busCmd .start], mkDesc .write 3 2 2, true) := by decide

/-! ### The catch-all -/

/-- V57, V60 and the other rows of R92 that decode to OTHER. -/
theorem test_other_rows :
    [0x00, 0x68, 0x78, 0x88, 0x98, 0xB0, 0xD0, 0xD8, 0xE0, 0xE8, 0xF0, 0xF8].map
      (fun w => see (fun t => (t.outs, t.desc.result, t.busy)) (flight (mkDesc .write 2 1 3) (plainEvent w))) =
      List.replicate 12 (some ([.busCmd .reset], ResCode.unknown, false)) := by decide
/-- V59. -/
theorem test_other_idle :
    see (fun t => (t.outs, t.desc)) (idle (plainEvent 0x00)) = some ([.busCmd .reset], State.reset.desc) := by
  decide

/-! ### Slave events -/

/-- V66, V67. -/
theorem test_srSlaAck :
    [true, false].map (fun a => see (fun t => t.outs) (slave (asked 0x60 a))) =
      [some [.call .rx 0 .sessionStart, .busCmd .ack], some [.call .rx 0 .sessionStart, .busCmd .nack]] := by decide
/-- V68, V69. -/
theorem test_srGcallAck :
    [true, false].map (fun a => see (fun t => t.outs) (slave (asked 0x70 a))) =
      [some [.call .rx 0 .bcastSessionStart, .busCmd .ack], some [.call .rx 0 .bcastSessionStart, .busCmd .nack]] := by
  decide
/-- V71: the answer is ignored. -/
theorem test_srData80 :
    see (fun t => t.outs) (slave (asked 0x80 false)) = some [.call .rx 0 .data, .busCmd .ack] := by decide
/-- V72. -/
theorem test_srData90 :
    see (fun t => t.outs) (slave (asked 0x90 false)) = some [.call .rx 0 .data, .busCmd .ack] := by decide
/-- V73. -/
theorem test_srStop :
    see (fun t => t.outs) (slave (asked 0xA0 true)) = some [.call .rx 0 .sessionEnd, .busCmd .release] := by decide
/-- PROG6, step 1: the handler queues the first byte during the call. -/
theorem test_stSlaAck :
    see (fun t => (t.outs, t.bei.output)) (slave (.event ⟨0xA8, 0, ⟨true, some 0xC1, []⟩, []⟩)) =
      some ([.call .tx 0 .sessionStart, .busOut 0xC1, .busCmd .ack], 0xC1) := by decide
/-- V76, V77. -/
theorem test_stDataAck :
    [true, false].map (fun a => see (fun t => t.outs) (slave (asked 0xB8 a))) =
      [some [.call .tx 0 .data, .busCmd .ack], some [.call .tx 0 .data, .busCmd .nack]] := by decide
/-- V78. -/
theorem test_stLastAck :
    see (fun t => t.outs) (slave (asked 0xC8 true)) = some [.call .tx 0 .moreRequested, .busCmd .release] := by decide
/-- V79. -/
theorem test_stDataNack :
    see (fun t => t.outs) (slave (asked 0xC0 true)) = some [.call .tx 0 .sessionEnd, .busCmd .release] := by decide
/-- R267: a handler's request is answered BUSY with a transaction in flight; R275: it is refused with none. -/
theorem test_handler_request_is_busy :
    see (fun t => (t.outs, t.busy))
      { slave (.event ⟨0x80, 0, ⟨true, none, [⟨0x0A0, 1, 0, 0⟩]⟩, []⟩) with busy := true } =
      some ([.call .rx 0 .data, .response .busy, .busCmd .ack], true) := by decide
theorem test_handler_request_is_refused :
    step (slave (.event ⟨0x80, 0, ⟨true, none, [⟨0x0A0, 1, 0, 0⟩]⟩, []⟩)) = .refused .handlerRequestAccepted := rfl
/-- V80 to V85: no handler, no call. -/
theorem test_absent_handlers :
    [0x60, 0x70, 0x80, 0x90, 0xA0, 0xA8, 0xB8, 0xC8, 0xC0].map
      (fun w => see (fun t => t.outs) (idle (asked w true))) =
      [.nack, .nack, .ack, .ack, .release, .nack, .nack, .release, .release].map
        (fun c => some [Output.busCmd c]) := by decide

/-! ### The other steps -/

/-- V64: a request from inside the callback is answered BUSY. -/
theorem test_callback_request_is_busy :
    see (fun t => (t.outs, t.busy))
      (flight { mkDesc .write 2 2 3 with cbValid := true, cbRef := 9 }
        (.event ⟨0x28, 0, ⟨false, none, []⟩, [⟨0x0A0, 1, 0, 0⟩]⟩)) =
      some ([.busCmd .stop, .done .ok 9, .response .busy], false) := by decide
/-- V14. -/
theorem test_config :
    see (fun t => (t.srt, t.outs))
      (idle (.config ⟨true, 0x2A, true, true, 0, false, 0⟩)) = some (⟨true, 0x2A, true, true, false, 0, 0⟩, []) := by decide
/-- V15: `own_addr` is unchanged. -/
theorem test_config_none :
    see (fun t => (t.srt.enabled, t.srt.ownAddr, t.srt.rxValid, t.leftContract))
      { slave (.config ⟨false, 0, false, false, 0, false, 0⟩) with bootWindow := false } =
      some (false, 0x2A, false, true) := by decide
/-- V88. -/
theorem test_reset :
    see (fun t => (t.busy, t.desc.cbValid, t.srt.enabled, t.srt.rxValid, t.outs))
      { slave (.reset { mkDesc .read 3 1 2 with cbValid := true } { State.reset.srt with rxValid := true }) with
        busy := true } = some (false, false, false, false, []) := by decide
/-- V16. -/
theorem test_wait_idle :
    see (fun t => (t.outs, t.inputs)) (idle .wait) = some ([.readBusy false], []) := by decide
/-- PROG9: with no event to come the loop takes another turn. -/
theorem test_wait_spins :
    see (fun t => (t.outs, t.inputs)) (flight (mkDesc .write 1 0 3) .wait) = some ([.readBusy true], [.wait]) := by
  decide
/-- R216: after a reset of CORE amid a transfer and a new SEND, the old address acknowledge is out of contract and the
start condition is in it. -/
theorem test_posted_start_closes_transfer :
    [0x18, 0x08].map (fun w => see (fun t => t.leftContract)
      { flight (mkDesc .write 2 0 3) (plainEvent w) with
        eng := postStart { role := .addrQueued, last := some .ack, pendingStart := false } }) =
      [some true, some false] := by decide
theorem test_address_acknowledged_in_contract :
    see (fun t => t.leftContract)
      { flight (mkDesc .write 2 0 3) (plainEvent 0x18) with
        eng := { role := .addrQueued, last := some .ack, pendingStart := false } } = some false := by decide
/-- Log 27: in the boot window, and late. -/
theorem test_engine_init_window :
    [true, false].map (fun b => see (fun t => t.leftContract) { idle .engineInit with bootWindow := b }) =
      [some false, some true] := by decide
theorem test_hang : step { flight (mkDesc .write 1 0 3) .wait with inputs := [] } = .fault .lockedUp := rfl
theorem test_unlisted_byte_removed : Memory.write [(1, 5), (2, 7)] 1 0 = [(2, 7)] := by decide
theorem test_write_in_order : Memory.write [(1, 5), (4, 7)] 2 9 = [(1, 5), (2, 9), (4, 7)] := by decide

/-! ### Witnesses: concrete states and operands that meet the hypotheses of each statement, one for each clause -/

theorem witness_StatusWordsDecodeByTheTable :
    Config.t0.statusDecode = statusTable ∧ (0x0F : Byte) &&& 0xF8 = 0x08 ∧ (0xFF : Byte) &&& 0xF8 = 0xF8 := by decide
theorem witness_DecodeOfEncodeIsIdentity :
    Instr.wf Config.t0 (.send true 0x7F 8 0xFFFF 0xFF) = true ∧ Instr.wf Config.t0 (.receive true 0 0 0 0) = true ∧
      Instr.wf Config.t0 .otherF8 = true ∧
      (∀ w, encode .otherF8 = .status w → Instr.otherF8.event = some (statusEvent Config.t0 w)) ∧
      Config.t0.statusDecode = statusTable := by
  refine ⟨by decide, by decide, by decide, fun w h => ?_, rfl⟩
  cases h
  rfl
/-- A word with a row, and a word without one. -/
theorem witness_DecodeTableIsAParameter :
    Config.t0.wf = true ∧ (0x08, Event.start) ∈ Config.t0.statusDecode ∧ (0x08 : Byte) = 0x0F &&& 0xF8 ∧
      Config.wf { Config.t0 with statusDecode := [(0x08, .start)] } = true ∧
      ∀ row ∈ ([(0x08, .start)] : List (Byte × Event)), row.1 ≠ 0x10 &&& 0xF8 := by decide
theorem witness_EncodeOfDecodeIsTheWord : Config.t0.statusDecode = statusTable := rfl
theorem witness_RequestHeaderLayout : Config.t0.addrFits 0xFFFF = true ∧ Config.t0.refFits 0xFF = true := by decide
theorem witness_EventStepRunsDecodedInstruction :
    (idle (plainEvent 0x0B)).inputs = [plainEvent 0x0B] ∧ decode Config.t0 (.status 0x0B) = .ok .start := ⟨rfl, rfl⟩
theorem witness_RequestStepRunsDecodedInstruction :
    (idle (.request ⟨0x1FF, 1, 0xFFFF, 0xFF⟩)).inputs = [.request ⟨0x1FF, 1, 0xFFFF, 0xFF⟩] ∧
      decode Config.t0 (.request ⟨0x1FF, 1, 0xFFFF, 0xFF⟩) = .ok (.receive true 0x7F 1 0xFFFF 0xFF) := ⟨rfl, rfl⟩
theorem witness_OverwideOperandsAreRefused :
    2 ^ Config.t0.addrW ≤ 0x10000 ∧ 0xFFFF < 2 ^ Config.t0.addrW ∧ 2 ^ Config.t0.cbW ≤ 0x100 ∧
      (idle (.request ⟨0, 1, 0x10000, 0⟩)).inputs = [.request ⟨0, 1, 0x10000, 0⟩] ∧
      (idle (.request ⟨0, 1, 0xFFFF, 0x100⟩)).inputs = [.request ⟨0, 1, 0xFFFF, 0x100⟩] ∧
      (idle (.config ⟨true, 0, true, true, 0xFF, true, 0x100⟩)).inputs =
        [.config ⟨true, 0, true, true, 0xFF, true, 0x100⟩] := by decide
theorem witness_AcceptanceCheckOrder :
    (flight (mkDesc .write 1 0 3) .wait).busy = true ∧ (idle .wait).busy = false ∧
      ((0 : Nat) = 0 ∨ Config.t0.bufCap < 0) ∧ ((9 : Nat) = 0 ∨ Config.t0.bufCap < 9) ∧
      8 ≤ (idle .wait).cfg.bufCap ∧ (0x7F : BusAddr) ≠ 0 := by decide
theorem witness_AcceptedSendFillsDescriptor :
    (idle .wait).busy = false ∧ 1 ≤ 8 ∧ 8 ≤ (idle .wait).cfg.bufCap ∧
      (idle .wait).desc.buf.length = (idle .wait).cfg.bufCap := by decide
theorem witness_AcceptedReceiveFillsDescriptor :
    (idle .wait).busy = false ∧ 1 ≤ 1 ∧ 1 ≤ (idle .wait).cfg.bufCap ∧ (1 : BusAddr) ≠ 0 := by decide
theorem witness_DeliverThroughTheGate :
    (idle .wait).busy = false ∧
      (flight { mkDesc .write 1 1 3 with cbValid := true } .wait).busy = true ∧
      (flight { mkDesc .write 1 1 3 with cbValid := true } .wait).desc.cbValid = true ∧
      (flight (mkDesc .write 1 1 3) .wait).desc.cbValid = false := by decide
/-- The three clauses: notified, stored, and not ended. -/
theorem witness_DeliveryIsNotifyOrStore :
    Instr.isEvent .mtDataAck = true ∧
      (∃ t, exec .mtDataAck (flight { mkDesc .write 1 1 3 with cbValid := true } .wait) = .next t ∧
        t.busy = false) ∧
      (∃ t, exec .mtDataAck (flight (mkDesc .write 1 1 3) .wait) = .next t ∧ t.busy = false) ∧
      ∃ t, exec .mtDataAck (flight (mkDesc .write 2 1 3) .wait) = .next t ∧ t.busy = true :=
  ⟨rfl, ⟨_, rfl, rfl⟩, ⟨_, rfl, rfl⟩, ⟨_, rfl, rfl⟩⟩
theorem witness_IdleEventsDeliverNothing :
    Instr.isEvent .other00 = true ∧ (idle .wait).busy = false ∧ ∃ t, exec .other00 (idle .wait) = .next t :=
  ⟨rfl, rfl, _, rfl⟩
/-- `busy` rises, falls by STOP, falls by RESET, falls at a reset. -/
theorem witness_BusyFlagLifecycle :
    (∃ t, step (idle (.request ⟨0x0A0, 1, 0, 0⟩)) = .next t ∧ t.busy = true) ∧
      (∃ t, step (flight (mkDesc .write 1 1 3) (plainEvent 0x28)) = .next t ∧ t.busy = false) ∧
      (∃ t, step (flight (mkDesc .write 1 1 3) (plainEvent 0x00)) = .next t ∧ t.busy = false) ∧
      ∃ t, step (flight (mkDesc .write 1 1 3) (.reset State.reset.desc State.reset.srt)) = .next t ∧
        t.busy = false := ⟨⟨_, rfl, rfl⟩, ⟨_, rfl, rfl⟩, ⟨_, rfl, rfl⟩, ⟨_, rfl, rfl⟩⟩
theorem witness_OneCommandPerStep :
    Instr.isEvent .srStop = true ∧ (∃ t, exec .srStop (idle .wait) = .next t) ∧
      Instr.isEvent (.send false 0 1 0 0) = false ∧
      (∃ t, exec (.send false 0 1 0 0) (idle .wait) = .next t ∧ t.busy = true) ∧
      (∃ t, exec (.send false 0 0 0 0) (idle .wait) = .next t ∧ t.busy = false) ∧
      (∃ t, step (idle (.config ⟨false, 0, false, false, 0, false, 0⟩)) = .next t) ∧
      (∃ t, step (idle (.reset State.reset.desc State.reset.srt)) = .next t) ∧
      ∃ t, step (idle (.hostRead .desc)) = .next t :=
  ⟨rfl, ⟨_, rfl⟩, rfl, ⟨_, rfl, rfl⟩, ⟨_, rfl, rfl⟩, ⟨_, rfl⟩, ⟨_, rfl⟩, ⟨_, rfl⟩⟩
theorem witness_AddressAcknowledgedSendsByte :
    (flight (mkDesc .write 8 7 3) .wait).desc.idx < (flight (mkDesc .write 8 7 3) .wait).desc.len ∧
      (flight (mkDesc .write 8 7 3) .wait).desc.buf[7]? = some 0 ∧
      (flight (mkDesc .write 8 8 3) .wait).desc.len ≤ (flight (mkDesc .write 8 8 3) .wait).desc.idx := by decide
theorem witness_DataAcknowledgedSendsByte :
    (flight (mkDesc .write 8 7 3) .wait).desc.idx < (flight (mkDesc .write 8 7 3) .wait).desc.len ∧
      (flight (mkDesc .write 8 7 3) .wait).desc.buf[7]? = some 0 ∧
      (flight (mkDesc .write 8 8 3) .wait).desc.len ≤ (flight (mkDesc .write 8 8 3) .wait).desc.idx := by decide
theorem witness_AddressNotAcknowledgedSpendsRetry :
    1 < (flight (mkDesc .read 1 0 2) .wait).desc.tries ∧ (flight (mkDesc .read 1 0 1) .wait).desc.tries ≤ 1 ∧
      (flight (mkDesc .read 1 0 0) .wait).desc.tries ≤ 1 := by decide
theorem witness_ReadAddressAcknowledged :
    1 < (flight (mkDesc .read 2 0 3) .wait).desc.len ∧ (flight (mkDesc .read 1 0 3) .wait).desc.len ≤ 1 := by decide
theorem witness_ReceivedByteIsStored :
    (flight (mkDesc .read 2 1 3) .wait).mem.wf ∧ (flight (mkDesc .read 2 1 3) .wait).desc.dir = .read ∧
      (flight (mkDesc .read 2 1 3) .wait).desc.idx < (flight (mkDesc .read 2 1 3) .wait).desc.len ∧
      (flight (mkDesc .write 2 1 3) .wait).desc.dir = .write ∧
      (flight (mkDesc .read 2 2 3) .wait).desc.len ≤ (flight (mkDesc .read 2 2 3) .wait).desc.idx := by decide
theorem witness_FinalByteIsStoredAndDelivered :
    (flight (mkDesc .read 1 0 3) .wait).mem.wf ∧ (flight (mkDesc .read 1 0 3) .wait).desc.dir = .read ∧
      (flight (mkDesc .read 1 0 3) .wait).desc.idx < (flight (mkDesc .read 1 0 3) .wait).desc.len ∧
      (flight (mkDesc .write 1 0 3) .wait).desc.dir = .write ∧
      (flight (mkDesc .read 1 1 3) .wait).desc.len ≤ (flight (mkDesc .read 1 1 3) .wait).desc.idx := by decide
theorem witness_CatchAllDeliversUnknown : Instr.event .other88 = some .other := rfl
/-- A handler that issues no request, and one whose two requests are refused. -/
theorem witness_AskedHandlerDecidesTheCommand :
    handlerValid .rx (slave .wait) = true ∧ handlerValid .tx (slave .wait) = true ∧
      (slave .wait).env.reply.requests.map (requestCheck (slave .wait).busy (slave .wait).cfg.bufCap) =
        ([] : List ResCode).map some ∧
      (asking [⟨0x0A0, 0, 0, 0⟩, ⟨0x001, 1, 0, 0⟩]).env.reply.requests.map (requestCheck false 8) =
        [ResCode.badParameter, .badParameter].map some := by decide
/-- No request; two refused ones with nothing in flight; a good one in flight. -/
theorem witness_ToldHandlerIsIgnored :
    handlerValid .rx (slave .wait) = true ∧ handlerValid .tx (slave .wait) = true ∧
      (slave .wait).env.reply.requests.map (requestCheck (slave .wait).busy (slave .wait).cfg.bufCap) =
        ([] : List ResCode).map some ∧
      (let s := asking [⟨0x0A0, 0, 0, 0⟩, ⟨0x001, 1, 0, 0⟩];
        handlerValid .rx s = true ∧ handlerValid .tx s = true ∧
          s.env.reply.requests.map (requestCheck s.busy s.cfg.bufCap) =
            [ResCode.badParameter, .badParameter].map some) ∧
      (let s := { asking [⟨0x0A0, 8, 0, 0⟩] with busy := true };
        handlerValid .rx s = true ∧ handlerValid .tx s = true ∧
          s.env.reply.requests.map (requestCheck s.busy s.cfg.bufCap) = [ResCode.busy].map some) := by decide
/-- In flight, and not: a SEND of the greatest length, a RECEIVE of the least. -/
theorem witness_HandlerRequestsAreBusyOrRefused :
    handlerValid .rx (asking [⟨0x0A0, 8, 0, 0⟩]) = true ∧ handlerValid .tx (asking [⟨0x0A0, 8, 0, 0⟩]) = true ∧
      { asking [⟨0x0A0, 8, 0, 0⟩] with busy := true }.busy = true ∧ (asking [⟨0x0A0, 8, 0, 0⟩]).busy = false ∧
      (∃ r ∈ (asking [⟨0x0A0, 8, 0, 0⟩]).env.reply.requests, 1 ≤ r.len ∧ r.len ≤ 8 ∧ (r.dir = .write ∨ r.addr ≠ 0)) ∧
      ∃ r ∈ (asking [⟨0x003, 1, 0, 0⟩]).env.reply.requests, 1 ≤ r.len ∧ r.len ≤ 8 ∧ (r.dir = .write ∨ r.addr ≠ 0) :=
  ⟨rfl, rfl, rfl, rfl, ⟨_, List.mem_singleton.2 rfl, by decide⟩, ⟨_, List.mem_singleton.2 rfl, by decide⟩⟩
theorem witness_AbsentHandlerRejects :
    handlerValid .rx (idle .wait) = false ∧ handlerValid .tx (idle .wait) = false := by decide
theorem witness_SlaveEventsLeaveCoreState :
    Instr.isSlave .stSlaAck = true ∧ ∃ t, exec .stSlaAck (slave .wait) = .next t := ⟨rfl, _, rfl⟩
theorem witness_SlaveEventsReadOnlyTheHandlers :
    Instr.isSlave .srSlaAck = true ∧ (slave .wait).srt.rxValid = (slave (.hostRead .busy)).srt.rxValid ∧
      (slave .wait).srt.txValid = (slave (.hostRead .busy)).srt.txValid ∧
      (slave .wait).srt.rxRef = (slave (.hostRead .busy)).srt.rxRef ∧
      (slave .wait).srt.txRef = (slave (.hostRead .busy)).srt.txRef ∧
      (slave .wait).env.reply = (slave (.hostRead .busy)).env.reply ∧
      (slave .wait).outs = (slave (.hostRead .busy)).outs ∧ (slave .wait).env.reply.requests = [] ∧
      (∃ t, exec .srSlaAck (slave .wait) = .next t) ∧
      ∃ t, exec .srSlaAck (slave (.hostRead .busy)) = .next t :=
  ⟨rfl, rfl, rfl, rfl, rfl, rfl, rfl, rfl, ⟨_, rfl⟩, ⟨_, rfl⟩⟩
/-- The other side of the disjunction: a request of the handler, both machines busy. -/
theorem witness_SlaveEventsReadOnlyTheHandlers_request :
    (asking [⟨0x0A0, 8, 0, 0⟩]).busy = (asking [⟨0x0A0, 8, 0, 0⟩]).busy ∧
      (∃ t, exec .srSlaAck { asking [⟨0x0A0, 8, 0, 0⟩] with busy := true } = .next t) ∧
      (asking [⟨0x0A0, 8, 0, 0⟩]).cfg.bufCap = (asking [⟨0x0A0, 8, 0, 0⟩]).cfg.bufCap := ⟨rfl, ⟨_, rfl⟩, rfl⟩
/-- A handler that rejects, and no handler. -/
theorem witness_RejectedSessionGetsNoData :
    statusEvent Config.t0 0x60 = .srSlaAck ∧ statusEvent Config.t0 0x70 = .srGcallAck ∧
      (slave (asked 0x60 false)).inputs = [asked 0x60 false] ∧ (slave (asked 0x60 false)).eng.role ≠ .off ∧
      (∃ t, step (slave (asked 0x60 false)) = .next t) ∧
      { slave (asked 0x70 true) with srt := State.reset.srt }.srt.rxValid = false ∧
      (∃ t, step { slave (asked 0x70 true) with srt := State.reset.srt } = .next t) ∧
      statusEvent Config.t0 0x80 = .srData ∧ statusCode 0x80 ∉ ([0x00, 0x88, 0x98] : List Byte) ∧
      (slave (asked 0x60 false)).cfg.statusDecode = statusTable :=
  ⟨rfl, rfl, rfl, by decide, ⟨_, rfl⟩, rfl, ⟨_, rfl⟩, rfl, by decide, rfl⟩
theorem witness_CanonicalMemoriesAreEqual :
    Memory.wf [(0, 1), (0xFFFF, 2)] ∧ ∀ a, Memory.read [(0, 1), (0xFFFF, 2)] a = Memory.read [(0, 1), (0xFFFF, 2)] a :=
  ⟨by decide, fun _ => rfl⟩
/-- The store at the top of the address space changes a byte. -/
theorem witness_OnlyReceivedBytesReachHostMemory :
    let s := { flight { mkDesc .read 1 0 3 with dst := 0xFFFF } .wait with bei := { State.reset.bei with input := 7 } }
    s.mem.wf ∧ ∃ t, exec .mrDataNack s = .next t ∧ t.mem.read 0xFFFF ≠ s.mem.read 0xFFFF :=
  ⟨by decide, _, rfl, by decide⟩
theorem witness_DescriptorFieldsHaveTheirWriters :
    Instr.isEvent .start = true ∧ Instr.start ∉ [Instr.mtSlaAck, .mtDataAck, .mrDataAck, .mrDataNack] ∧
      Instr.start ∉ [Instr.mtSlaNack, .mrSlaNack] ∧ Instr.start.event ≠ some .other ∧
      Instr.isEvent (.send false 0 1 0 0) = false ∧ (∃ t, exec (.send false 0 1 0 0) (idle .wait) = .next t) ∧
      (∃ t, exec (.receive false 1 1 0 0) (idle .wait) = .next t) ∧ ∃ t, exec .start (idle .wait) = .next t :=
  ⟨rfl, by decide, by decide, by decide, rfl, ⟨_, rfl⟩, ⟨_, rfl⟩, ⟨_, rfl⟩⟩
theorem witness_MeaningsLeaveTheEnvironment : ∃ t, exec .arbLost (idle .wait) = .next t := ⟨_, rfl⟩
theorem witness_MeaningsIgnoreTheEngine : ∃ t, exec (.receive true 1 8 0 0) (idle .wait) = .next t := ⟨_, rfl⟩
theorem witness_CallbackModeOnlyChangesDelivery :
    Instr.isEvent .mrDataNack = true ∧ (∃ t, exec .mrDataNack (flight (mkDesc .read 1 0 3) .wait) = .next t) ∧
      ∃ u, exec .mrDataNack (flight { mkDesc .read 1 0 3 with cbValid := true, cbRef := 9 } .wait) = .next u :=
  ⟨rfl, ⟨_, rfl⟩, ⟨_, rfl⟩⟩
theorem witness_StartCommandInFourPlaces :
    ∃ t, exec .arbLost (idle .wait) = .next t ∧ t.outs = (idle .wait).outs ++ [.busCmd .start] := ⟨_, rfl, rfl⟩
theorem witness_ResetStepClearsTheFlags :
    let d := { mkDesc .read 8 8 3 with dst := 0xFFFF, cbRef := 0xFF }
    let q := { State.reset.srt with rxRef := 0xFF, txRef := 0xFF }
    let s := idle (.reset d q)
    s.inputs = [.reset d q] ∧ d.buf.length = s.cfg.bufCap ∧ d.dst < 2 ^ s.cfg.addrW ∧
      d.len < 2 ^ lenWidth s.cfg ∧ d.idx < 2 ^ lenWidth s.cfg ∧ d.tries ≤ s.cfg.maxTries ∧
      d.cbRef < 2 ^ s.cfg.cbW ∧ q.rxRef < 2 ^ s.cfg.cbW ∧ q.txRef < 2 ^ s.cfg.cbW := by decide
theorem witness_ConfigWritesTheTable :
    CfgRec.wf Config.t0 ⟨true, 0x2A, true, true, 0xFF, true, 0xFF⟩ = true ∧
      (idle (.config ⟨true, 0x2A, true, true, 0xFF, true, 0xFF⟩)).inputs =
        [.config ⟨true, 0x2A, true, true, 0xFF, true, 0xFF⟩] := by decide
theorem witness_HostReadsChangeNothing :
    (idle (.hostRead .busy)).inputs = [.hostRead .busy] ∧ (idle (.hostRead .result)).inputs = [.hostRead .result] ∧
      (idle (.hostRead .desc)).inputs = [.hostRead .desc] := by decide
theorem witness_WaitSpinsWhileBusy :
    (idle .wait).inputs = [.wait] ∧ (idle .wait).busy = false ∧ (flight (mkDesc .write 1 0 3) .wait).busy = true ∧
      { flight (mkDesc .write 1 0 3) .wait with inputs := [.wait, .hostRead .busy] }.inputs =
        [.wait, .hostRead .busy] ∧
      (Stimulus.hostRead .busy).interrupts = false ∧
      { flight (mkDesc .write 1 0 3) .wait with inputs := [.wait, plainEvent 0x08] }.inputs =
        [.wait, .event ⟨0x08, 0, ⟨false, none, []⟩, []⟩] := by decide
/-- Accepted, a SEND and a RECEIVE with operands at their bounds, and refused. -/
theorem witness_SynchronousCallExpands :
    Config.t0.addrFits 0xFFFF = true ∧ Config.t0.refFits 0xFF = true ∧
      (idle (.callSync ⟨0x1A0, 8, 0xFFFF, 0xFF⟩)).inputs = [.callSync ⟨0x1A0, 8, 0xFFFF, 0xFF⟩] ∧
      (∃ t, step (idle (.callSync ⟨0x1A0, 8, 0xFFFF, 0xFF⟩)) = .next t ∧ Output.response .accepted ∈ t.outs) ∧
      (∃ t, step (idle (.callSync ⟨0x0A1, 1, 0, 0⟩)) = .next t ∧ Output.response .accepted ∈ t.outs) ∧
      ∃ t, step (idle (.callSync ⟨0x0A0, 0, 0, 0⟩)) = .next t ∧ Output.response .accepted ∉ t.outs :=
  ⟨by decide, by decide, rfl, ⟨_, rfl, by decide⟩, ⟨_, rfl, by decide⟩, ⟨_, rfl, by decide⟩⟩
theorem witness_SilentBusLocksUp :
    State.reset.inputs = [] ∧ State.reset.busy = false ∧ { State.reset with busy := true }.inputs = [] := by decide
theorem witness_ArbitrationStarvationNeverEnds :
    statusEvent Config.t0 0x08 = .start ∧ statusEvent Config.t0 0x38 = .arbLost ∧
    { flight (mkDesc .write 1 0 3) .wait with
      inputs := [plainEvent 0x08, plainEvent 0x38, plainEvent 0x08, plainEvent 0x38] }.inputs =
      (List.replicate 2 [plainEvent 0x08, plainEvent 0x38]).flatten := by decide
theorem witness_MarkRecordsTheContract :
    (∃ t, step { idle .wait with leftContract := true } = .next t) ∧
      (∃ t, step (slave (asked 0x60 true)) = .next t ∧ t.leftContract = false) ∧
      (∃ t, step (idle .engineInit) = .next t ∧ t.leftContract = false) ∧
      ∃ t, step (idle (.config ⟨false, 0, false, false, 0, false, 0⟩)) = .next t ∧ t.leftContract = false :=
  ⟨⟨_, rfl⟩, ⟨_, rfl, by decide⟩, ⟨_, rfl, rfl⟩, ⟨_, rfl, rfl⟩⟩
/-- A new SEND while the engine is in the middle of a transfer. -/
theorem witness_PostedStartClosesTheTransfer :
    let s := { idle (.request ⟨0x0A0, 1, 0, 0⟩) with
      eng := { role := .mt, last := some .nack, pendingStart := false } }
    (s.inputs = [.request ⟨0x0A0, 1, 0, 0⟩] ∧ ∃ t, step s = .next t ∧ Output.response .accepted ∈ t.outs) ∧
      s.eng.role ≠ .off ∧ s.eng.role ≠ .sr ∧ s.eng.role ≠ .st :=
  ⟨⟨rfl, _, rfl, by decide⟩, by decide⟩
theorem witness_PendingStartAcrossSession :
    (slave (asked 0x60 true)).inputs = [asked 0x60 true] ∧ (decodeStatus Config.t0 0x60).isSlave = true ∧
      (slave (asked 0x60 true)).eng.role ≠ .off ∧ ∃ t, step (slave (asked 0x60 true)) = .next t :=
  ⟨rfl, rfl, by decide, _, rfl⟩
/-- A state in flight, its buffer index inside the request, with a callback. -/
theorem witness_StepKeepsTheInvariant :
    Inv (flight { mkDesc .read 8 7 3 with dst := 0xFFFF, cbValid := true } (inputEvent 0x58 7)) ∧
      ∃ t, step (flight { mkDesc .read 8 7 3 with dst := 0xFFFF, cbValid := true } (inputEvent 0x58 7)) =
        .next t :=
  ⟨⟨by decide, by decide, by decide, by decide, by decide, by decide, by decide, by decide, by decide, by decide,
    by decide, by decide, by decide, by decide⟩, _, rfl⟩
theorem witness_AcknowledgedWriteEndsInOk :
    let s := { idle .wait with
      inputs := .request ⟨requestHeader false 0x50 .write, 8, 0xFFFF, 0⟩ :: plainEvent 0x08 :: plainEvent 0x18 ::
        List.replicate 8 (plainEvent 0x28) }
    statusEvent s.cfg 0x08 = .start ∧ statusEvent s.cfg 0x18 = .mtSlaAck ∧ statusEvent s.cfg 0x28 = .mtDataAck ∧
      s.busy = false ∧ 8 ≤ s.cfg.bufCap ∧ s.desc.buf.length = s.cfg.bufCap ∧ 0xFFFF < 2 ^ s.cfg.addrW := by decide

/-- The bus event of a status word alone. -/
def eventOf (w : Byte) : BusEvent := ⟨w, 0, ⟨false, none, []⟩, []⟩

/-- A write, no callback; a read, with a callback; the greatest budget of T0. -/
theorem witness_RetryBudgetEndsInNotFound :
    let refused := [(eventOf 0x20, eventOf 0x10), (eventOf 0x20, eventOf 0x10)]
    let s := { flight (mkDesc .write 1 0 3) .wait with
      inputs := retryScript refused ++ [Stimulus.event (eventOf 0x20)] }
    let u := { s with
      desc := { mkDesc .read 1 0 3 with cbValid := true }
      inputs := retryScript [(eventOf 0x48, eventOf 0x10), (eventOf 0x48, eventOf 0x10)] ++
        [Stimulus.event (eventOf 0x48)] }
    s.busy = true ∧ s.desc.tries = refused.length + 1 ∧ s.desc.cbValid = false ∧ u.desc.cbValid = true ∧
      u.desc.tries = refused.length + 1 ∧ statusEvent s.cfg 0x20 = .mtSlaNack ∧
      statusEvent u.cfg 0x48 = .mrSlaNack ∧ statusEvent s.cfg 0x10 = .repStart := by decide
/-- A write of two bytes, and a read of two bytes into a destination. -/
theorem witness_LastRetryAcknowledgedEndsInOk :
    let refused := [(eventOf 0x20, eventOf 0x10), (eventOf 0x20, eventOf 0x10)]
    let s := { flight (mkDesc .write 2 0 3) .wait with
      inputs := retryScript refused ++ Stimulus.event (eventOf 0x18) ::
        [eventOf 0x28, eventOf 0x28].map Stimulus.event }
    let u := { flight (mkDesc .read 2 0 3) .wait with
      inputs := retryScript refused ++ Stimulus.event (eventOf 0x40) ::
        ([eventOf 0x50] ++ [eventOf 0x58]).map Stimulus.event }
    s.busy = true ∧ s.desc.tries = refused.length + 1 ∧ s.desc.idx < s.desc.len ∧
      [eventOf 0x28, eventOf 0x28].length = s.desc.len - s.desc.idx ∧ statusEvent s.cfg 0x18 = .mtSlaAck ∧
      statusEvent s.cfg 0x28 = .mtDataAck ∧ u.desc.dir = .read ∧ u.desc.idx < u.desc.len ∧
      [eventOf 0x50].length + 1 = u.desc.len - u.desc.idx ∧ statusEvent u.cfg 0x40 = .mrSlaAck ∧
      statusEvent u.cfg 0x50 = .mrDataAck ∧ statusEvent u.cfg 0x58 = .mrDataNack := by decide
theorem witness_ReadDeliversBytesInOrder :
    let s := { idle .wait with
      inputs := .request ⟨requestHeader false 0x68 .read, [0x11, 0x22].length + 1, 0xFFFF, 0⟩ :: plainEvent 0x08 ::
        plainEvent 0x40 :: ([0x11, 0x22].map (inputEvent 0x50) ++ [inputEvent 0x58 0x33]) }
    statusEvent s.cfg 0x08 = .start ∧ statusEvent s.cfg 0x40 = .mrSlaAck ∧ statusEvent s.cfg 0x50 = .mrDataAck ∧
      statusEvent s.cfg 0x58 = .mrDataNack ∧ s.busy = false ∧ s.mem.wf ∧
      (0x68 : BusAddr) ≠ 0 ∧ 0xFFFF < 2 ^ s.cfg.addrW ∧
      ([0x11, 0x22] : List Byte).length + 1 ≤ s.cfg.bufCap ∧
      ([0x11, 0x22] : List Byte).length + 1 ≤ 2 ^ s.cfg.addrW := by decide
theorem witness_OneNotificationPerTransaction :
    (∀ x ∈ (flight (mkDesc .write 1 1 3) (plainEvent 0x28)).inputs, x.isRequest = false) ∧
      State.reset.busy = false := by decide

end Sys2Proof.Tests
end

section
/-! PROOFS. Scope (spec/00_scope.md): the decode table is a parameter, and a request step runs the instruction its
header names. -/

namespace Sys2Proof

/-! ### The decode table as a finite map (spec/00_scope.md R7, spec/30_encoding.md R92, R93) -/

theorem nodup_keys_of_tableWf {rows : List (Byte × Event)} (h : tableWf rows = true) :
    (rows.map Prod.fst).Nodup := by
  simp only [tableWf, Bool.and_eq_true, decide_eq_true_eq] at h
  exact h.2

theorem tableWf_of_wf {c : Config} (h : c.wf = true) : tableWf c.statusDecode = true := by
  simp only [Config.wf, Bool.and_eq_true] at h
  exact h.2

/-- No two rows overlap, so the lookup finds the row that stands in the table, wherever it stands. -/
theorem tableEvent_of_mem {rows : List (Byte × Event)} (hnd : (rows.map Prod.fst).Nodup)
    {row : Byte × Event} (hmem : row ∈ rows) : tableEvent rows row.1 = row.2 := by
  induction rows with
  | nil => cases hmem
  | cons first rest ih =>
    obtain ⟨hfirst, hrest⟩ := List.nodup_cons.mp hnd
    obtain rfl | hmem := List.mem_cons.mp hmem
    · simp [tableEvent]
    · have hne : first.1 ≠ row.1 := fun heq => hfirst (heq ▸ List.mem_map_of_mem hmem)
      simp [tableEvent, hne, ih hrest hmem]

/-- A value without a row is OTHER (R93). -/
theorem tableEvent_of_forall_ne {rows : List (Byte × Event)} {code : Byte} (h : ∀ row ∈ rows, row.1 ≠ code) :
    tableEvent rows code = .other := by
  induction rows with
  | nil => rfl
  | cons first rest ih =>
    obtain ⟨hfirst, hrest⟩ := List.forall_mem_cons.mp h
    simp [tableEvent, hfirst, ih hrest]

end Sys2Proof

namespace Sys2Proof.Machine

/-- A request step, its operands fitting: the decoded instruction runs between `openRequest` and `closeRequest`
(spec/00_scope.md R8). -/
theorem step_request {s : State} {r : RawReq} {rest : List Stimulus} {i : Instr}
    (hx : s.inputs = .request r :: rest) (hd : decode s.cfg (.request r) = .ok i) :
    step s = onNext closeRequest (exec i (openRequest (takeStimulus rest s))) := by
  simp only [step, hx, runStimulus, runRequest, takeStimulus_cfg, hd]

/-- Settles O57: the rows of a legal table have distinct values, so looking a value up gives its own row's event. -/
theorem decodeTableIsAParameter : Obligations.DecodeTableIsAParameter := by
  intro c w hwf
  have hnd := nodup_keys_of_tableWf (tableWf_of_wf hwf)
  refine ⟨fun row hmem hcode => ?_, tableEvent_of_forall_ne, _, rfl, decodeStatus_event c w⟩
  rw [statusEvent, statusCode, ← hcode, tableEvent_of_mem hnd hmem]

/-- Settles O9: only the exact operands of `decode_request` decode, and `step_request` is the step. -/
theorem requestStepRunsDecodedInstruction : Obligations.RequestStepRunsDecodedInstruction := by
  intro s r rest i hx hd
  obtain ⟨hi, hptr, href⟩ := decode_request hd
  refine ⟨hi, hi ▸ toInstr_wf hptr href, ?_⟩
  have hopen : openRequest (takeStimulus rest s) = { s with inputs := rest, outs := [], bootWindow := false } := rfl
  rw [step_request hx hd, hopen]
  cases exec i { s with inputs := rest, outs := [], bootWindow := false } <;> rfl

end Sys2Proof.Machine
end

section
/-! PROOFS. State (spec/10_state.md): what an instruction leaves unchanged and which instructions write a field, the
invariant of R38, the busy flag over whole steps, and the fields no meaning reads. -/

namespace Sys2Proof.Machine

/-! ### What an event leaves unchanged (R20) -/

theorem HasEffect.environment {i : Instr} {s t : State} (h : HasEffect i s t) :
    t.cfg = s.cfg ∧ t.srt = s.srt ∧ t.eng = s.eng ∧ t.env = s.env ∧ t.inputs = s.inputs ∧
      t.bei.status = s.bei.status ∧ t.bei.input = s.bei.input ∧ t.bootWindow = s.bootWindow ∧
      t.leftContract = s.leftContract := by
  obtain ⟨_, _, _, e⟩ := h
  obtain ⟨idx, tries, cbv, res, v, m, b, ht⟩ := e.rest
  rw [ht]
  exact ⟨rfl, rfl, rfl, rfl, rfl, rfl, rfl, rfl, rfl⟩

/-- The operands of the request in flight are written by no event. -/
theorem HasEffect.operands {i : Instr} {s t : State} (h : HasEffect i s t) :
    t.desc.addr = s.desc.addr ∧ t.desc.dir = s.desc.dir ∧ t.desc.buf = s.desc.buf ∧ t.desc.dst = s.desc.dst ∧
      t.desc.len = s.desc.len ∧ t.desc.cbRef = s.desc.cbRef ∧ t.accepted = s.accepted := by
  obtain ⟨_, _, _, e⟩ := h
  obtain ⟨idx, tries, cbv, res, v, m, b, ht⟩ := e.rest
  rw [ht]
  exact ⟨rfl, rfl, rfl, rfl, rfl, rfl, rfl⟩

/-- R26. -/
theorem HasEffect.idx_cases {i : Instr} {s t : State} (h : HasEffect i s t) :
    t.desc.idx = s.desc.idx ∨
      (t.desc.idx = s.desc.idx + 1 ∧ s.desc.idx < s.desc.len ∧
        i ∈ [Instr.mtSlaAck, .mtDataAck, .mrDataAck, .mrDataNack]) := by
  obtain ⟨_, _, _, e⟩ := h
  exact e.idx

/-- R27. -/
theorem HasEffect.tries_cases {i : Instr} {s t : State} (h : HasEffect i s t) :
    t.desc.tries = s.desc.tries ∨
      (t.desc.tries + 1 = s.desc.tries ∧ i ∈ [Instr.mtSlaNack, .mrSlaNack]) := by
  obtain ⟨_, _, _, e⟩ := h
  exact e.tries

/-- The one store an event can make (R68). -/
theorem HasEffect.mem_cases {i : Instr} {s t : State} (h : HasEffect i s t) :
    t.mem = s.mem ∨ t.mem = s.mem.write (storeAddr s) s.bei.input := by
  obtain ⟨_, _, _, e⟩ := h
  exact e.mem.imp_right And.left

/-- The gate, as the flags see it: it did not act, or it ended the transaction in flight in a terminal row (R190). -/
theorem HasEffect.gate_cases {i : Instr} {s t : State} (h : HasEffect i s t) :
    (t.busy = s.busy ∧ t.desc.cbValid = s.desc.cbValid ∧ t.desc.result = s.desc.result) ∨
      (s.busy = true ∧ t.busy = false ∧ t.desc.cbValid = false ∧
        (busCmds t.outs = busCmds s.outs ++ [.stop] ∨ busCmds t.outs = busCmds s.outs ++ [.reset]) ∧
        (i ∈ [Instr.mtSlaAck, .mtDataAck, .mtSlaNack, .mrSlaNack, .mtDataNack, .mrDataNack] ∨
          i.event = some .other)) := by
  obtain ⟨pre, c, post, e⟩ := h
  rcases e.gate with ⟨hbusy, hcb, hres, -⟩ | ⟨hs, ht, hc, hi, hcb, -⟩
  · exact .inl ⟨hbusy, hcb, hres⟩
  · refine .inr ⟨hs, ht, hcb, ?_, hi⟩
    rw [e.cmds]
    exact hc.imp (fun h => by rw [h]) fun h => by rw [h]

/-! ### What a host request leaves unchanged (R120 to R124) -/

/-- R30: no request delivers, stores or hands a byte to the engine. -/
theorem exec_request_result_mem_output {i : Instr} {s t : State} (hi : i.isEvent = false)
    (h : exec i s = .next t) :
    t.desc.result = s.desc.result ∧ t.mem = s.mem ∧ t.bei.output = s.bei.output := by
  obtain ⟨_, -, rfl⟩ | ⟨-, _, _, _, _, _, _, _, _, -, -, -, -, -, -, -, -, -, rfl⟩ := exec_request hi h
  · exact ⟨rfl, rfl, rfl⟩
  · exact ⟨rfl, rfl, rfl⟩

/-- SEND copies `len` bytes and has no destination (R121). -/
theorem exec_send_dst_tail {cb : Bool} {addr : BusAddr} {len src ref : Nat} {s t : State}
    (h : exec (.send cb addr len src ref) s = .next t) :
    t.desc.dst = s.desc.dst ∧ ∀ k, len ≤ k → t.desc.buf[k]? = s.desc.buf[k]? := by
  obtain ⟨_, -, rfl⟩ | ⟨-, _, dir, _, _, _, _, _, _, hinstr, -, -, -, htail, -, -, -, -, rfl⟩ := exec_request rfl h
  · exact ⟨rfl, fun _ _ => rfl⟩
  · obtain ⟨⟨⟩, rfl⟩ | ⟨⟨⟩, -⟩ := hinstr
    exact ⟨rfl, htail⟩

/-- RECEIVE leaves the outgoing buffer alone (R122). -/
theorem exec_receive_buf {cb : Bool} {addr : BusAddr} {len dst ref : Nat} {s t : State}
    (h : exec (.receive cb addr len dst ref) s = .next t) : t.desc.buf = s.desc.buf := by
  obtain ⟨_, -, rfl⟩ | ⟨-, _, dir, _, _, _, _, _, _, hinstr, -, -, -, -, hbuf, -, -, -, rfl⟩ := exec_request rfl h
  · rfl
  · obtain ⟨⟨⟩, -⟩ | ⟨⟨⟩, rfl⟩ := hinstr
    exact hbuf rfl

/-- Settles O38: neither an event row nor a host request has any of these fields among those it writes. -/
theorem meaningsLeaveTheEnvironment : Obligations.MeaningsLeaveTheEnvironment := by
  intro i s t h
  cases hi : i.isEvent with
  | true => exact (exec_event hi h).environment
  | false =>
    obtain ⟨_, -, rfl⟩ | ⟨-, _, _, _, _, _, _, _, _, -, -, -, -, -, -, -, -, -, rfl⟩ := exec_request hi h
    · exact ⟨rfl, rfl, rfl, rfl, rfl, rfl, rfl, rfl, rfl⟩
    · exact ⟨rfl, rfl, rfl, rfl, rfl, rfl, rfl, rfl, rfl⟩

/-- Settles O37: the writers of each field, from what an event and what a host request can do. -/
theorem descriptorFieldsHaveTheirWriters : Obligations.DescriptorFieldsHaveTheirWriters := by
  intro i s t h
  refine ⟨fun hi => (exec_event hi h).operands, fun hi hidx => ?_, fun hi => ?_, fun hi htries => ?_,
    fun hi => ?_, fun hi => exec_request_result_mem_output hi h, ?_, ?_, fun hi hrow hother => ?_⟩
  · exact (exec_event hi h).idx_cases.resolve_right fun ⟨_, _, hmem⟩ => hidx hmem
  · exact (exec_event hi h).idx_cases.imp_right fun ⟨hidx, hlt, _⟩ => ⟨hidx, hlt⟩
  · exact (exec_event hi h).tries_cases.resolve_right fun ⟨_, hmem⟩ => htries hmem
  · exact (exec_event hi h).tries_cases.imp_right And.left
  · rintro cb addr len src ref rfl
    exact exec_send_dst_tail h
  · rintro cb addr len dst ref rfl
    exact exec_receive_buf h
  · exact (exec_event hi h).gate_cases.resolve_right fun ⟨_, _, _, _, hi⟩ => hi.elim hrow hother

/-! ### The invariant (R32, R38) -/

/-- The invariant speaks of these six fields only. -/
theorem Inv.of_eq {s t : State} (hs : Inv s) (hcfg : t.cfg = s.cfg) (hdesc : t.desc = s.desc)
    (hbusy : t.busy = s.busy) (hsrt : t.srt = s.srt) (hmem : t.mem = s.mem) (hacc : t.accepted = s.accepted) :
    Inv t := by
  cases t
  cases hcfg
  cases hdesc
  cases hbusy
  cases hsrt
  cases hmem
  cases hacc
  exact { hs with }

/-- The index moves below `len` only, the budget moves down only, and the gate clears both flags together. -/
theorem HasEffect.keeps_inv {i : Instr} {s t : State} (h : HasEffect i s t) (hs : Inv s) : Inv t := by
  obtain ⟨hcfg, hsrt, -⟩ := h.environment
  obtain ⟨-, -, hbuf, hdst, hlen, href, hacc⟩ := h.operands
  have hidxLen : t.desc.idx = s.desc.idx ∨ t.desc.idx ≤ s.desc.len :=
    h.idx_cases.imp_right fun ⟨hidx, hlt, _⟩ => by omega
  have htries : t.desc.tries ≤ s.desc.tries :=
    h.tries_cases.elim (fun h => h.le) fun ⟨h, _⟩ => by omega
  exact {
    cfgLegal := by rw [hcfg]; exact hs.cfgLegal
    bufLength := by rw [hcfg, hbuf]; exact hs.bufLength
    dstFits := by rw [hcfg, hdst]; exact hs.dstFits
    lenFits := by rw [hcfg, hlen]; exact hs.lenFits
    idxFits := by
      rw [hcfg]
      exact hidxLen.elim (fun h => h ▸ hs.idxFits) fun h => h.trans_lt hs.lenFits
    triesBound := by rw [hcfg]; exact htries.trans hs.triesBound
    cbRefFits := by rw [hcfg, href]; exact hs.cbRefFits
    tableFits := by rw [hcfg, hsrt]; exact hs.tableFits
    lenRange := by rw [hcfg, hlen, hacc]; exact hs.lenRange
    idxBound := by
      rw [hlen, hacc]
      exact fun ha => hidxLen.elim (fun h => h ▸ hs.idxBound ha) id
    busyAccepted := by
      rw [hacc]
      rcases h.gate_cases with ⟨hbusy, -⟩ | ⟨-, hbusy, -⟩
      · rw [hbusy]; exact hs.busyAccepted
      · simp [hbusy]
    callbackBusy := by
      rcases h.gate_cases with ⟨hbusy, hcb, -⟩ | ⟨-, -, hcb, -⟩
      · rw [hbusy, hcb]; exact hs.callbackBusy
      · simp [hcb]
    memCanonical := by
      rcases h.mem_cases with hmem | hmem <;> rw [hmem]
      · exact hs.memCanonical
      · exact Memory.write_wf hs.memCanonical _ _
    memInSpace := by
      rw [hcfg]
      rcases h.mem_cases with hmem | hmem <;> rw [hmem]
      · exact hs.memInSpace
      · exact Memory.write_inSpace hs.memInSpace (hostAddr_lt _ _ _) _ }

/-- The acceptance check bounds `len` (R120), the decoder bounds pointer and reference (R96). -/
theorem exec_request_keeps_inv {i : Instr} {s t : State} (hi : i.isEvent = false) (hwf : i.wf s.cfg = true)
    (h : exec i s = .next t) (hs : Inv s) : Inv t := by
  obtain ⟨_, -, rfl⟩ | ⟨-, addr, dir, buf, ptr, len, ref, cb, new, hinstr, hpos, hcap, hbuf, -, -, -, -, -, rfl⟩ :=
    exec_request hi h
  · exact hs.of_eq rfl rfl rfl rfl rfl rfl
  · have hfits : ptr < 2 ^ s.cfg.addrW ∧ ref < 2 ^ s.cfg.cbW := by
      obtain ⟨rfl, -⟩ | ⟨rfl, -⟩ := hinstr <;> simpa [Instr.wf, Config.addrFits, Config.refFits] using hwf
    exact { hs with
      bufLength := hbuf.trans hs.bufLength
      dstFits := by
        show (if dir = .read then ptr else s.desc.dst) < _
        split
        · exact hfits.1
        · exact hs.dstFits
      lenFits := hcap.trans_lt (bufCap_lt_lenWidth _)
      idxFits := Nat.two_pow_pos _
      triesBound := le_rfl
      cbRefFits := hfits.2
      lenRange := fun _ => ⟨hpos, hcap⟩
      idxBound := fun _ => Nat.zero_le _
      busyAccepted := fun _ => rfl
      callbackBusy := fun _ => rfl }

theorem runRequest_keeps_inv {r : RawReq} {s t : State} (h : runRequest r s = .next t) (hs : Inv s) : Inv t := by
  obtain ⟨u, hd, hu, rfl⟩ := runRequest_next h
  obtain ⟨-, hptr, href⟩ := decode_request hd
  have hopen : Inv (openRequest s) := hs.of_eq rfl rfl rfl rfl rfl rfl
  have hu : Inv u := exec_request_keeps_inv (s := openRequest s) (toInstr_isEvent r) (toInstr_wf hptr href) hu hopen
  obtain ⟨g, hg⟩ := closeRequest_eq u
  rw [hg]
  exact hu.of_eq rfl rfl rfl rfl rfl rfl

/-- CONFIG writes references that fit, or keeps those that stand (R101, R126). -/
theorem configStep_keeps_inv {r : CfgRec} {s : State} (hr : r.wf s.cfg = true) (hs : Inv s) :
    Inv (configStep r s) := by
  have hrefs : r.rxRef < 2 ^ s.cfg.cbW ∧ r.txRef < 2 ^ s.cfg.cbW := by
    simpa [CfgRec.wf, Config.refFits] using hr
  have htable : (configure r s.srt).rxRef < 2 ^ s.cfg.cbW ∧ (configure r s.srt).txRef < 2 ^ s.cfg.cbW := by
    unfold configure
    split
    · exact hrefs
    · exact hs.tableFits
  exact { hs with tableFits := htable }

/-- The draw of a reset step is cut to the widths of R20 and the bound of R38(c), and nothing is in flight after it
(R260). -/
theorem resetStep_keeps_inv (d : Desc) (q : SlaveTable) {s : State} (hs : Inv s) : Inv (resetStep d q s) :=
  { hs with
    bufLength := fitBuffer_length _ _
    dstFits := Nat.mod_lt _ (Nat.two_pow_pos _)
    lenFits := Nat.mod_lt _ (Nat.two_pow_pos _)
    idxFits := Nat.mod_lt _ (Nat.two_pow_pos _)
    triesBound := Nat.le_of_lt_succ (Nat.mod_lt _ (Nat.succ_pos _))
    cbRefFits := Nat.mod_lt _ (Nat.two_pow_pos _)
    tableFits := ⟨Nat.mod_lt _ (Nat.two_pow_pos _), Nat.mod_lt _ (Nat.two_pow_pos _)⟩
    lenRange := nofun
    idxBound := nofun
    busyAccepted := nofun
    callbackBusy := nofun }

/-- The host writes inside the address space (R62). -/
theorem hostWriteStep_keeps_inv (a : Nat) (v : Byte) {s : State} (hs : Inv s) : Inv (hostWriteStep a v s) :=
  { hs with
    memCanonical := Memory.write_wf hs.memCanonical _ _
    memInSpace := Memory.write_inSpace hs.memInSpace (hostAddr_lt _ _ _) _ }

theorem readStep_eq (w : ReadSel) (s : State) : ∃ o, readStep w s = emit o s := by
  cases w <;> exact ⟨_, rfl⟩

theorem waitStep_eq (s : State) : ∃ xs os, waitStep s = { s with inputs := xs, outs := os } := by
  unfold waitStep
  split
  · split <;> exact ⟨_, _, rfl⟩
  · exact ⟨_, _, rfl⟩

/-- Settles O51: of the nine kinds of step, events, requests, CONFIG, reset and host writes keep the invariant each by
the lemma above, and the others write none of its fields. -/
theorem stepKeepsTheInvariant : Obligations.StepKeepsTheInvariant := by
  intro s t hs h
  obtain ⟨x, rest, -, hcases⟩ := step_cases h
  have hs : Inv (takeStimulus rest s) := hs.of_eq rfl rfl rfl rfl rfl rfl
  rcases hcases with ⟨e, u, -, hu, rfl⟩ | ⟨r, -, hr⟩ | ⟨r, u, -, hu, rfl⟩ | ⟨r, -, hr, rfl⟩ | ⟨d, q, -, rfl⟩ |
    ⟨w, -, rfl⟩ | ⟨-, rfl⟩ | ⟨a, v, -, rfl⟩ | ⟨-, rfl⟩
  · have hopen : Inv (openEvent e (takeStimulus rest s)) := hs.of_eq rfl rfl rfl rfl rfl rfl
    have hu : Inv u := (exec_event (decodeStatus_isEvent _ _) hu).keeps_inv hopen
    obtain ⟨g, hg⟩ := closeEvent_eq (decodeStatus s.cfg e.status) u
    rw [hg]
    exact hu.of_eq rfl rfl rfl rfl rfl rfl
  · exact runRequest_keeps_inv hr hs
  · obtain ⟨xs, hxs⟩ := blockCaller_eq u
    rw [hxs]
    exact (runRequest_keeps_inv hu hs).of_eq rfl rfl rfl rfl rfl rfl
  · exact configStep_keeps_inv hr hs
  · exact resetStep_keeps_inv d q hs
  · obtain ⟨o, ho⟩ := readStep_eq w (takeStimulus rest s)
    rw [ho]
    exact hs.of_eq rfl rfl rfl rfl rfl rfl
  · obtain ⟨xs, os, hw⟩ := waitStep_eq (takeStimulus rest s)
    rw [hw]
    exact hs.of_eq rfl rfl rfl rfl rfl rfl
  · exact hostWriteStep_keeps_inv a v hs
  · exact hs.of_eq rfl rfl rfl rfl rfl rfl

/-- Settles O52: `State.reset` is data, so each clause is a closed fact about T0 (log 4). -/
theorem resetMeetsTheInvariant : Obligations.ResetMeetsTheInvariant where
  cfgLegal := by decide
  bufLength := rfl
  dstFits := by decide
  lenFits := by decide
  idxFits := by decide
  triesBound := by decide
  cbRefFits := by decide
  tableFits := by decide
  lenRange := nofun
  idxBound := nofun
  busyAccepted := nofun
  callbackBusy := nofun
  memCanonical := Memory.reset_wf
  memInSpace := nofun

/-! ### The busy flag over whole steps (R31, R192) -/

/-- A request step leaves `busy` alone, or answers ACCEPTED with START (R124, R263). -/
theorem runRequest_busy {r : RawReq} {s t : State} (h : runRequest r s = .next t) :
    t.busy = s.busy ∨
      (s.busy = false ∧ Output.response .accepted ∈ t.outs ∧ busCmds t.outs = busCmds s.outs ++ [.start]) := by
  obtain ⟨u, -, hu, rfl⟩ := runRequest_next h
  obtain ⟨g, hg⟩ := closeRequest_eq u
  rw [hg]
  obtain ⟨_, -, rfl⟩ | ⟨hbusy, _, _, _, _, _, _, _, new, -, -, -, -, -, -, hcmds, -, hacc, rfl⟩ :=
    exec_request (toInstr_isEvent r) hu
  · exact .inl rfl
  · refine .inr ⟨hbusy, List.mem_append_right _ hacc, ?_⟩
    exact (busCmds_append _ _).trans (by rw [hcmds]; rfl)

/-- Everything a step can do to `busy`. -/
theorem step_busy_cases {s t : State} (h : step s = .next t) :
    t.busy = s.busy ∨
      (s.busy = false ∧ Output.response .accepted ∈ t.outs ∧ busCmds t.outs = [.start]) ∨
      (t.busy = false ∧
        (busCmds t.outs = [.stop] ∨ busCmds t.outs = [.reset] ∨ ∃ d q rest, s.inputs = .reset d q :: rest)) := by
  obtain ⟨x, rest, hx, hcases⟩ := step_cases h
  rcases hcases with ⟨e, u, -, hu, rfl⟩ | ⟨r, -, hr⟩ | ⟨r, u, -, hu, rfl⟩ | ⟨r, -, -, rfl⟩ | ⟨d, q, rfl, rfl⟩ |
    ⟨w, -, rfl⟩ | ⟨-, rfl⟩ | ⟨a, v, -, rfl⟩ | ⟨-, rfl⟩
  · obtain ⟨g, hg⟩ := closeEvent_eq (decodeStatus s.cfg e.status) u
    rw [hg]
    obtain ⟨hbusy, -⟩ | ⟨-, hbusy, -, hcmds, -⟩ := (exec_event (decodeStatus_isEvent _ _) hu).gate_cases
    · exact .inl hbusy
    · exact .inr (.inr ⟨hbusy, hcmds.imp_right .inl⟩)
  · exact (runRequest_busy hr).imp_right .inl
  · obtain ⟨xs, hxs⟩ := blockCaller_eq u
    rw [hxs]
    exact (runRequest_busy hu).imp_right .inl
  · exact .inl rfl
  · exact .inr (.inr ⟨rfl, .inr (.inr ⟨d, q, rest, hx⟩)⟩)
  · obtain ⟨o, ho⟩ := readStep_eq w (takeStimulus rest s)
    exact .inl (by rw [ho]; rfl)
  · obtain ⟨xs, os, hw⟩ := waitStep_eq (takeStimulus rest s)
    exact .inl (by rw [hw]; rfl)
  · exact .inl rfl
  · exact .inl rfl

/-- Settles O17: of the three things a step can do to `busy`, only the accept step lets it rise and only the end of a
transaction or a reset lets it fall. -/
theorem busyFlagLifecycle : Obligations.BusyFlagLifecycle := by
  intro s t h
  rcases step_busy_cases h with heq | ⟨hidle, hstart⟩ | ⟨hidle, hend⟩
  · exact ⟨fun hs ht => by simp [heq, hs] at ht, fun hs ht => by simp [heq, hs] at ht⟩
  · exact ⟨fun _ _ => hstart, fun hs => by simp [hidle] at hs⟩
  · exact ⟨fun _ ht => by simp [hidle] at ht, fun _ _ => hend⟩

/-! ### What no meaning reads (R33, R37) -/

/-- Values for the fields that no meaning reads. -/
structure Unread where
  eng : Engine
  enabled : Bool
  ownAddr : BusAddr
  bcast : Bool
  inputs : List Stimulus

/-- The state with those fields replaced. -/
def Unread.put (u : Unread) (s : State) : State :=
  { s with
    eng := u.eng
    srt := { s.srt with enabled := u.enabled, ownAddr := u.ownAddr, bcast := u.bcast }
    inputs := u.inputs }

/-- A branch on a condition both states share. -/
theorem ite_put {u : Unread} {b : Bool} {v v' w w' : State} (h : v = u.put w) (h' : v' = u.put w') :
    (if b then v else v') = u.put (if b then w else w') := by
  rw [h, h']
  exact (apply_ite u.put _ _ _).symm

section
variable (u : Unread) (s : State)

@[simp] theorem Unread.put_cfg : (u.put s).cfg = s.cfg := rfl
@[simp] theorem Unread.put_busy : (u.put s).busy = s.busy := rfl
@[simp] theorem Unread.put_env : (u.put s).env = s.env := rfl

theorem respond_put (r : ResCode) : respond r (u.put s) = u.put (respond r s) := rfl
theorem busCmd_put (c : Cmd) : busCmd c (u.put s) = u.put (busCmd c s) := rfl
theorem copyByte_put (src i : Nat) : copyByte src i (u.put s) = u.put (copyByte src i s) := rfl

theorem copySource_put (src n i : Nat) : copySource src n i (u.put s) = u.put (copySource src n i s) := by
  induction n generalizing i s with
  | zero => rfl
  | succ n ih => simp only [copySource, copyByte_put, ih]

theorem acceptSend_put (cb : Bool) (addr : BusAddr) (len src ref : Nat) :
    acceptSend cb addr len src ref (u.put s) = u.put (acceptSend cb addr len src ref s) := by
  simp only [acceptSend, copySource_put]
  rfl

theorem sendRequest_put (cb : Bool) (addr : BusAddr) (len src ref : Nat) :
    sendRequest cb addr len src ref (u.put s) = u.put (sendRequest cb addr len src ref s) := by
  simp only [sendRequest, Unread.put_busy, Unread.put_cfg]
  split
  · exact respond_put u s _
  · exact acceptSend_put u s cb addr len src ref

theorem receiveRequest_put (cb : Bool) (addr : BusAddr) (len dst ref : Nat) :
    receiveRequest cb addr len dst ref (u.put s) = u.put (receiveRequest cb addr len dst ref s) := by
  simp only [receiveRequest, Unread.put_busy, Unread.put_cfg]
  split <;> rfl

theorem hostRequest_put (r : RawReq) : hostRequest r (u.put s) = u.put (hostRequest r s) := by
  unfold hostRequest
  split
  · exact sendRequest_put u s _ _ _ _ _
  · exact receiveRequest_put u s _ _ _ _ _

theorem hostRequests_put (l : List RawReq) : hostRequests l (u.put s) = u.put (hostRequests l s) :=
  List.foldl_hom u.put fun t r => hostRequest_put u t r

theorem deliver_put (r : ResCode) : deliver r (u.put s) = u.put (deliver r s) := by
  have hcallback := hostRequests_put u (notify r s.desc.cbRef (setCbValid false s)) s.env.callback
  exact ite_put (ite_put (congrArg (setBusy false) hcallback) rfl) rfl

theorem sendNext_put : sendNext (u.put s) = u.put (sendNext s) :=
  ite_put rfl (deliver_put u (busCmd .stop s) .ok)

theorem spendRetry_put : spendRetry (u.put s) = u.put (spendRetry s) := ite_put rfl rfl

theorem addressRefused_put : addressRefused (u.put s) = u.put (addressRefused s) := by
  simp only [addressRefused, spendRetry_put]
  exact ite_put rfl (deliver_put u (busCmd .stop (spendRetry s)) .notFound)

theorem storeInput_put : storeInput (u.put s) = u.put (storeInput s) := ite_put rfl rfl

theorem handlerOut_put : handlerOut (u.put s) = u.put (handlerOut s) := by
  simp only [handlerOut, Unread.put_env]
  split <;> rfl

theorem handlerRuns_put : handlerRuns (u.put s) = u.put (handlerRuns s) := by
  simp only [handlerRuns, handlerOut_put, Unread.put_env, hostRequests_put]

theorem callRx_put (a : Action) : callRx a (u.put s) = ((callRx a s).1, u.put (callRx a s).2) := by
  unfold callRx
  show (if s.srt.rxValid then _ else _) = _
  split
  · exact congrArg (Prod.mk _) (handlerRuns_put u (emit (.call .rx s.srt.rxRef a) s))
  · rfl

theorem callTx_put (a : Action) : callTx a (u.put s) = ((callTx a s).1, u.put (callTx a s).2) := by
  unfold callTx
  show (if s.srt.txValid then _ else _) = _
  split
  · exact congrArg (Prod.mk _) (handlerRuns_put u (emit (.call .tx s.srt.txRef a) s))
  · rfl

theorem answer_put (b : Bool) : answer (b, u.put s) = u.put (answer (b, s)) := by
  cases b <;> rfl

theorem handlerStartsRequest_put (sel : HandlerSel) :
    handlerStartsRequest sel (u.put s) = handlerStartsRequest sel s := by
  cases sel <;> rfl

theorem slaveRule_put (sel : HandlerSel) {v w : State} (h : v = u.put w) :
    slaveRule sel (u.put s) v = onNext u.put (slaveRule sel s w) := by
  simp only [slaveRule, handlerStartsRequest_put, h]
  split <;> rfl

/-- Replacing the unread fields commutes with every instruction, one that is refused included. -/
theorem exec_put (i : Instr) : exec i (u.put s) = onNext u.put (exec i s) := by
  have completes : ∀ {v w : State}, v = u.put w → Host.Outcome.next v = onNext u.put (.next w) :=
    congrArg Host.Outcome.next
  cases i
  case start => rfl
  case repStart => rfl
  case arbLost => rfl
  case mtSlaAck => exact completes (sendNext_put u s)
  case mtDataAck => exact completes (sendNext_put u s)
  case mtSlaNack => exact completes (addressRefused_put u s)
  case mrSlaNack => exact completes (addressRefused_put u s)
  case mtDataNack =>
    exact completes (ite_put (deliver_put u (busCmd .stop s) .aborted) (deliver_put u (busCmd .stop s) .rejected))
  case mrSlaAck => exact completes (ite_put rfl rfl)
  case mrDataAck =>
    refine completes ?_
    simp only [storeInput_put]
    exact ite_put rfl rfl
  case mrDataNack => exact completes (by rw [storeInput_put, busCmd_put, deliver_put])
  case srSlaAck => exact slaveRule_put u s .rx (by rw [callRx_put, answer_put])
  case srGcallAck => exact slaveRule_put u s .rx (by rw [callRx_put, answer_put])
  case srData80 => exact slaveRule_put u s .rx (by rw [inboundData, callRx_put]; rfl)
  case srData90 => exact slaveRule_put u s .rx (by rw [inboundData, callRx_put]; rfl)
  case srStop => exact slaveRule_put u s .rx (by rw [callRx_put, busCmd_put])
  case stSlaAck => exact slaveRule_put u s .tx (by rw [callTx_put, answer_put])
  case stDataAck => exact slaveRule_put u s .tx (by rw [callTx_put, answer_put])
  case stLastAck => exact slaveRule_put u s .tx (by rw [callTx_put, busCmd_put])
  case stDataNack => exact slaveRule_put u s .tx (by rw [callTx_put, busCmd_put])
  case send cb addr len src ref => exact completes (sendRequest_put u s cb addr len src ref)
  case receive cb addr len dst ref => exact completes (receiveRequest_put u s cb addr len dst ref)
  all_goals exact completes (deliver_put u (busCmd .reset s) .unknown)

end

/-- Settles O39: `exec_put` on an instruction that completes. -/
theorem meaningsIgnoreTheEngine : Obligations.MeaningsIgnoreTheEngine := by
  intro i s t g en bc own xs h
  have hput := exec_put ⟨g, en, own, bc, xs⟩ s i
  rw [h] at hput
  exact hput

end Sys2Proof.Machine
end

section
/-! PROOFS. Host memory (spec/20_memory.md): the canonical form lists exactly the bytes that read as more than
unlisted, and the receive rows are the only writers. -/

namespace Sys2Proof.Machine

/-! ### The canonical form (log 7) -/

/-- A canonical memory lists a cell exactly when its address reads as its byte and that byte is worth listing, so the
reads alone determine the cells. -/
theorem Memory.mem_iff_read {m : Memory} (h : m.wf) (x : Host.Cell) :
    x ∈ m ↔ m.read x.1 = x.2 ∧ x.2 ≠ Memory.unlisted := by
  induction m with
  | nil => exact iff_of_false List.not_mem_nil fun ⟨hread, hlisted⟩ => hlisted hread.symm
  | cons y m ih =>
    obtain ⟨hlt, hy, hm⟩ := Memory.wf_cons.1 h
    rw [List.mem_cons, Memory.read_cons]
    by_cases hkey : y.1 = x.1
    · have hx : x ∉ m := fun hx => (hlt x hx).ne hkey
      have heq : x = y ↔ y.2 = x.2 := ⟨fun e => e ▸ rfl, fun e => (Prod.ext hkey e).symm⟩
      rw [if_pos hkey, or_iff_left hx, heq]
      exact ⟨fun e => ⟨e, e ▸ hy⟩, And.left⟩
    · have hx : x ≠ y := fun e => hkey (e ▸ rfl)
      rw [if_neg hkey, or_iff_right hx, ih hm]

/-- Settles O35: the two memories list the same cells, and a strictly rising list is determined by its members. -/
theorem canonicalMemoriesAreEqual : Obligations.CanonicalMemoriesAreEqual := by
  intro m m' hm hm' hread
  have hcells : ∀ x, x ∈ m ↔ x ∈ m' := fun x => by
    rw [Memory.mem_iff_read hm, Memory.mem_iff_read hm', hread]
  have hirrefl : Std.Irrefl fun x y : Host.Cell => x.1 < y.1 := ⟨fun x => lt_irrefl x.1⟩
  have hanti : Std.Antisymm fun x y : Host.Cell => x.1 < y.1 := ⟨fun _ _ hxy hyx => (lt_asymm hxy hyx).elim⟩
  exact hm.1.eq_of_mem_iff hm'.1 hcells

/-! ### The writers of host memory (R60, R68) -/

/-- An instruction leaves host memory as it is, or it is a receive row, the guard of R149 and R150 held, and it stored
the input byte at `storeAddr`. -/
theorem exec_mem_cases {i : Instr} {s t : State} (h : exec i s = .next t) :
    t.mem = s.mem ∨
      (t.mem = s.mem.write (storeAddr s) s.bei.input ∧ (i = .mrDataAck ∨ i = .mrDataNack) ∧
        s.desc.dir = .read ∧ s.desc.idx < s.desc.len ∧ t.desc.idx = s.desc.idx + 1) := by
  cases hi : i.isEvent with
  | true =>
    obtain ⟨_, _, _, e⟩ := exec_event hi h
    exact e.mem
  | false => exact .inl (exec_request_result_mem_output hi h).2.1

/-- Settles O36: of the two ends of `exec_mem_cases` only the store changes a read, and by `Memory.read_write` only
the one at its own address. -/
theorem onlyReceivedBytesReachHostMemory : Obligations.OnlyReceivedBytesReachHostMemory := by
  intro i s t a hwf h hchanged
  obtain hmem | ⟨hmem, hrow, hdir, hlt, hidx⟩ := exec_mem_cases h
  · exact absurd (by rw [hmem]) hchanged
  · have hread : t.mem.read a = if a = storeAddr s then s.bei.input else s.mem.read a := by
      rw [hmem, Memory.read_write hwf]
    have ha : a = storeAddr s := by
      by_contra hne
      exact hchanged (hread.trans (if_neg hne))
    exact ⟨hrow, hdir, hlt, ha, hread.trans (if_pos ha), hidx⟩

end Sys2Proof.Machine
end

section
/-! PROOFS. Encodings (spec/30_encoding.md): the decode table and its rows, the fields of a request header, the
decoder and the encoder undoing each other, the operands that do not fit, and the synchronous form of a request. -/

namespace Sys2Proof

/-! ### Status words (R91, R92) -/

theorem statusTable_nodup : (statusTable.map Prod.fst).Nodup := by decide

/-- The default table leaves no value `w & 0xF8` without a row (R92). -/
theorem statusCode_mem_statusTable : ∀ w : Byte, ∃ row ∈ statusTable, row.1 = statusCode w := by decide

/-- The row of R92 whose value is the status code gives the word its event. -/
theorem statusEvent_of_mem {c : Config} (hc : c.statusDecode = statusTable) {row : Byte × Event}
    (hrow : row ∈ statusTable) {w : Byte} (hw : statusCode w = row.1) : statusEvent c w = row.2 := by
  rw [statusEvent, hc, hw, tableEvent_of_mem statusTable_nodup hrow]

/-- Each row of R92 names an instruction of its own, and the encoder gives back the row's value. -/
theorem encode_eventRow_of_mem : ∀ row ∈ statusTable, encode (eventRow row.2 row.1) = .status row.1 := by decide

/-- Of the rows that share an event the word's own is taken (log 12). -/
theorem eventRow_of_encode {i : Instr} {w : Byte} {e : Event} (hw : encode i = .status w) (he : i.event = some e) :
    eventRow e (statusCode w) = i := by
  cases i <;> cases hw <;> cases he <;> rfl

/-- The encoder's numbers are those of R92. -/
theorem event_of_encode {c : Config} (hc : c.statusDecode = statusTable) {i : Instr} {w : Byte}
    (hw : encode i = .status w) : i.event = some (statusEvent c w) := by
  rw [statusEvent, hc]
  cases i <;> cases hw <;> rfl

/-! ### Request headers (R95): the fields as arithmetic on the header's number, in both directions -/

/-- Juxtaposition of words as arithmetic. -/
theorem toNat_append_eq_add {m n : Nat} (x : BitVec m) (y : BitVec n) :
    (x ++ y).toNat = 2 ^ n * x.toNat + y.toNat := by
  rw [BitVec.toNat_append, ← Nat.shiftLeft_add_eq_or_of_lt y.isLt, Nat.shiftLeft_eq, Nat.mul_comm]

/-- R97 in numbers. -/
theorem addrByte_toNat (addr : BusAddr) (dir : Dir) :
    (addrByte addr dir).toNat = 2 * addr.toNat + dir.bit.toNat :=
  toNat_append_eq_add addr dir.bit

/-- R95 in numbers: above the address byte stands `cb` alone. -/
theorem requestHeader_toNat (cb : Bool) (addr : BusAddr) (dir : Dir) :
    (requestHeader cb addr dir).toNat = 256 * cb.toNat + (addrByte addr dir).toNat := by
  rw [requestHeader, toNat_append_eq_add, toNat_append_eq_add, addrByte_toNat, BitVec.toNat_ofBool]
  omega

theorem RawReq.dir_bit_toNat (r : RawReq) : r.dir.bit.toNat = r.header.toNat % 2 := by
  have hbit : r.header.getLsbD 0 = decide (r.header.toNat % 2 = 1) := by rw [BitVec.getLsbD, Nat.testBit_zero]
  rw [RawReq.dir, hbit]
  split <;> simp_all [Dir.bit]

theorem RawReq.addr_toNat (r : RawReq) : r.addr.toNat = r.header.toNat / 2 % 128 := by
  rw [RawReq.addr, BitVec.extractLsb'_toNat, Nat.shiftRight_eq_div_pow]

theorem RawReq.cb_toNat (r : RawReq) : r.cb.toNat = r.header.toNat / 256 := by
  have hlt := r.header.isLt
  rw [RawReq.cb, BitVec.getLsbD, Nat.toNat_testBit]
  omega

theorem Dir.bit_toNat_inj {d e : Dir} (h : d.bit.toNat = e.bit.toNat) : d = e := by
  revert h
  cases d <;> cases e <;> decide

/-- The three fields are the whole header. -/
theorem RawReq.requestHeader_fields (r : RawReq) : requestHeader r.cb r.addr r.dir = r.header := by
  apply BitVec.eq_of_toNat_eq
  rw [requestHeader_toNat, addrByte_toNat, r.cb_toNat, r.addr_toNat, r.dir_bit_toNat]
  omega

section
variable (cb : Bool) (addr : BusAddr) (dir : Dir) (len ptr ref : Nat)

@[simp] theorem RawReq.dir_requestHeader : RawReq.dir ⟨requestHeader cb addr dir, len, ptr, ref⟩ = dir := by
  apply Dir.bit_toNat_inj
  rw [RawReq.dir_bit_toNat, requestHeader_toNat, addrByte_toNat]
  omega

@[simp] theorem RawReq.addr_requestHeader : RawReq.addr ⟨requestHeader cb addr dir, len, ptr, ref⟩ = addr := by
  apply BitVec.eq_of_toNat_eq
  rw [RawReq.addr_toNat, requestHeader_toNat, addrByte_toNat]
  omega

@[simp] theorem RawReq.cb_requestHeader : RawReq.cb ⟨requestHeader cb addr dir, len, ptr, ref⟩ = cb := by
  rw [Bool.eq_iff_iff, ← Bool.toNat_eq_one, RawReq.cb_toNat, requestHeader_toNat, addrByte_toNat,
    ← Bool.toNat_eq_one]
  omega

end

/-- An operand on its interface decodes, whatever the header: all 512 are legal. -/
theorem decode_request_of_fits {c : Config} {r : RawReq} (hptr : c.addrFits r.ptr = true)
    (href : c.refFits r.cbRef = true) : decode c (.request r) = .ok r.toInstr := by
  simp [decode, hptr, href]

/-- The encoder joins the fields the decoder reads. -/
theorem encode_toInstr (r : RawReq) : encode r.toInstr = .request r := by
  have hheader := r.requestHeader_fields
  unfold RawReq.toInstr
  split <;> rename_i hdir <;> rw [hdir] at hheader <;> simp only [encode, hheader]

/-- The decoder reads the fields the encoder joined. -/
theorem toInstr_of_encode {i : Instr} {r : RawReq} (h : encode i = .request r) : r.toInstr = i := by
  cases i <;> cases h <;> simp [RawReq.toInstr]

/-- Operands within their widths (R96) reach the decoder unchanged. -/
theorem decode_request_of_encode {c : Config} {i : Instr} {r : RawReq} (hwf : i.wf c = true)
    (h : encode i = .request r) : decode c (.request r) = .ok i := by
  have hfits : c.addrFits r.ptr = true ∧ c.refFits r.cbRef = true := by
    cases i <;> cases h <;> simpa [Instr.wf] using hwf
  rw [decode_request_of_fits hfits.1 hfits.2, toInstr_of_encode h]

/-! ### The header of a synchronous call (R104) -/

/-- The request a synchronous call makes: bit 8 of the header is cleared and no other (log 18). -/
def RawReq.sync (r : RawReq) : RawReq := { r with header := r.header &&& 0x0FF }

theorem RawReq.sync_header_toNat (r : RawReq) : r.sync.header.toNat = r.header.toNat % 256 :=
  Nat.and_two_pow_sub_one_eq_mod r.header.toNat 8

@[simp] theorem RawReq.sync_dir (r : RawReq) : r.sync.dir = r.dir := by
  apply Dir.bit_toNat_inj
  rw [r.sync.dir_bit_toNat, r.dir_bit_toNat, r.sync_header_toNat]
  omega

@[simp] theorem RawReq.sync_addr (r : RawReq) : r.sync.addr = r.addr := by
  apply BitVec.eq_of_toNat_eq
  rw [r.sync.addr_toNat, r.addr_toNat, r.sync_header_toNat]
  omega

@[simp] theorem RawReq.sync_cb (r : RawReq) : r.sync.cb = false := by
  rw [← Bool.toNat_eq_zero, r.sync.cb_toNat, r.sync_header_toNat]
  omega

/-- Both constructors a header stands for carry its callback bit. -/
theorem RawReq.cb_of_toInstr {r : RawReq} {cb : Bool} {addr : BusAddr} {len ptr ref : Nat}
    (h : r.toInstr = .send cb addr len ptr ref ∨ r.toInstr = .receive cb addr len ptr ref) : cb = r.cb := by
  unfold RawReq.toInstr at h
  split at h <;> simp_all

/-! ### Command codes (R98) -/

/-- No command has one of the two spare codes (R98). -/
theorem Cmd.code_ne_spare (c : Cmd) : c.code ≠ 0 ∧ c.code ≠ 7 := by
  cases c <;> decide

end Sys2Proof

namespace Sys2Proof.Machine

/-- Settles O2: a status row is its own event's row at its own value (`eventRow_of_encode`), and the three fields
of a header are read back as they were joined. -/
theorem decodeOfEncodeIsIdentity : Obligations.DecodeOfEncodeIsIdentity := by
  intro c i hwf
  have key : (∀ w, encode i = .status w → i.event = some (statusEvent c w)) → decode c (encode i) = .ok i := by
    intro hevent
    cases hi : encode i with
    | status w => rw [decode, decodeStatus, eventRow_of_encode hi (hevent w hi)]
    | request r => exact decode_request_of_encode hwf hi
  exact ⟨key, fun hc => key fun w => event_of_encode hc⟩

/-- Settles O3: the word's own row of R92 gives both its event and its value; a header is its three fields. -/
theorem encodeOfDecodeIsTheWord : Obligations.EncodeOfDecodeIsTheWord := by
  refine ⟨fun c w hc => ?_, encode_toInstr⟩
  obtain ⟨row, hrow, hw⟩ := statusCode_mem_statusTable w
  rw [decodeStatus, statusEvent_of_mem hc hrow hw.symm, ← hw, encode_eventRow_of_mem row hrow, hw, statusCode]

/-- Settles O4: the fields read from the header are its quotients and remainders (`RawReq.dir_bit_toNat`,
`RawReq.addr_toNat`, `RawReq.cb_toNat`). -/
theorem requestHeaderLayout : Obligations.RequestHeaderLayout := by
  intro c r hptr href
  refine ⟨r.cb, r.addr, r.dir, ?_, ?_, r.addr_toNat.symm, ?_, ?_⟩
  · exact decode_request_of_fits hptr href
  · rw [← r.dir_bit_toNat]
    cases r.dir <;> rfl
  · rw [← r.cb_toNat]
    cases r.cb <;> rfl
  · rw [addrByte_toNat, r.addr_toNat, r.dir_bit_toNat]
    omega

/-! ### The step of a synchronous call (R104, log 18) -/

/-- A request instruction always answers a next state, the one the host's request procedure makes. -/
theorem exec_toInstr (r : RawReq) (s : State) : exec r.toInstr s = .next (hostRequest r s) := by
  cases hdir : r.dir with
  | write =>
    have hinstr : r.toInstr = .send r.cb r.addr r.len r.ptr r.cbRef := by simp only [RawReq.toInstr, hdir]
    have hreq : hostRequest r s = sendRequest r.cb r.addr r.len r.ptr r.cbRef s := by simp only [hostRequest, hdir]
    calc exec r.toInstr s = exec (.send r.cb r.addr r.len r.ptr r.cbRef) s := congrArg (exec · s) hinstr
      _ = .next (sendRequest r.cb r.addr r.len r.ptr r.cbRef s) := rfl
      _ = .next (hostRequest r s) := congrArg Host.Outcome.next hreq.symm
  | read =>
    have hinstr : r.toInstr = .receive r.cb r.addr r.len r.ptr r.cbRef := by simp only [RawReq.toInstr, hdir]
    have hreq : hostRequest r s = receiveRequest r.cb r.addr r.len r.ptr r.cbRef s := by
      simp only [hostRequest, hdir]
    calc exec r.toInstr s = exec (.receive r.cb r.addr r.len r.ptr r.cbRef) s := congrArg (exec · s) hinstr
      _ = .next (receiveRequest r.cb r.addr r.len r.ptr r.cbRef s) := rfl
      _ = .next (hostRequest r s) := congrArg Host.Outcome.next hreq.symm

/-- A synchronous call, its operands fitting: the request with `cb = 0` as a request step runs it, then the caller
blocks. -/
theorem step_callSync {s : State} {r : RawReq} {rest : List Stimulus} (hx : s.inputs = .callSync r :: rest)
    (hptr : s.cfg.addrFits r.ptr = true) (href : s.cfg.refFits r.cbRef = true) :
    step s = .next (blockCaller (closeRequest (hostRequest r.sync (openRequest (takeStimulus rest s))))) := by
  have hd : decode s.cfg (.request r.sync) = .ok r.sync.toInstr := decode_request_of_fits hptr href
  have hrun : step s = onNext blockCaller (runRequest r.sync (takeStimulus rest s)) := by
    simp only [step, hx, runStimulus, runSync, RawReq.sync]
  rw [hrun, runRequest, takeStimulus_cfg, hd]
  simp only [exec_toInstr, onNext]

/-- ACCEPTED blocks the caller. -/
theorem blockCaller_closeRequest_of_accepted {u : State} (h : Output.response .accepted ∈ u.outs) :
    blockCaller (closeRequest u) =
      { closeRequest u with inputs := .wait :: .hostRead .result :: u.inputs } := by
  obtain ⟨g, hg⟩ := closeRequest_eq u
  rw [hg, blockCaller, if_pos h]

/-- A refusal returns at once: no START was posted and nobody waits (R124). -/
theorem blockCaller_closeRequest_of_refused {u : State} {code : ResCode} (h : u.outs = [.response code])
    (hcode : code ≠ .accepted) : blockCaller (closeRequest u) = u := by
  have hclose : closeRequest u = u := by rw [closeRequest, h]; rfl
  rw [hclose, blockCaller, h, if_neg (by simpa using hcode.symm)]

/-- Settles O46: `exec_request` leaves two ends, one refusal response or the accept step of a request whose callback
bit is 0. -/
theorem synchronousCallExpands : Obligations.SynchronousCallExpands := by
  intro s r rest hx hptr href
  have hstep := step_callSync hx hptr href
  have hexec := exec_toInstr r.sync (openRequest (takeStimulus rest s))
  generalize hostRequest r.sync (openRequest (takeStimulus rest s)) = u at hstep hexec
  refine ⟨u, ?_, ?_⟩
  · rw [← hexec, RawReq.toInstr, r.sync_dir, r.sync_addr, r.sync_cb]
    cases r.dir <;> rfl
  · obtain ⟨code, hcode, rfl⟩ | ⟨-, _, _, _, _, _, _, cb, new, hi, -, -, -, -, -, -, -, hacc, rfl⟩ :=
      exec_request (toInstr_isEvent r.sync) hexec
    · have hne : code ≠ .accepted := by rintro rfl; simp at hcode
      rw [blockCaller_closeRequest_of_refused rfl hne] at hstep
      refine ⟨fun h => ?_, fun _ => ⟨hstep, rfl, rfl, rfl, ?_⟩⟩
      · exact absurd h (by simp [openRequest, hne.symm])
      · obtain rfl | rfl := hcode
        · exact .inl rfl
        · exact .inr rfl
    · have hcb : cb = false := (RawReq.cb_of_toInstr (hi.imp And.left And.left)).trans r.sync_cb
      refine ⟨fun h => ⟨?_, rfl, hcb⟩, fun h => ?_⟩
      · rw [hstep, blockCaller_closeRequest_of_accepted h]
        rfl
      · exact absurd (List.mem_append_right _ hacc) h

/-! ### Words of the default table and of the interfaces (R92, R95, R98 to R100) -/

/-- Settles O1: the rows written out are `statusTable`, and a legal table gives each of its values its own event. -/
theorem statusWordsDecodeByTheTable : Obligations.StatusWordsDecodeByTheTable := by
  intro c hc row hrow w hw
  exact statusEvent_of_mem hc hrow hw

/-- Settles O5: the words are read field by field. -/
theorem sampleWordsDecode : Obligations.SampleWordsDecode :=
  ⟨rfl, rfl, rfl, rfl, rfl, rfl, rfl, rfl⟩

/-- Settles O6: the tables are lists of literals; `Cmd.code_ne_spare` is their one general fact. -/
theorem interfaceCodes : Obligations.InterfaceCodes :=
  ⟨rfl, Cmd.code_ne_spare, rfl, rfl, rfl, rfl⟩

/-! ### Operands that do not fit (log 13) -/

/-- A request the decoder rejects is refused under the decoder's name. -/
theorem step_request_error {s : State} {r : RawReq} {rest : List Stimulus} {e : DecodeError}
    (hx : s.inputs = .request r :: rest) (hd : decode s.cfg (.request r) = .error e) :
    step s = .refused (refusalOf e) := by
  simp only [step, hx, runStimulus, runRequest, takeStimulus_cfg, hd]

/-- A registration record the decoder rejects is refused under the decoder's name. -/
theorem step_config_error {s : State} {r : CfgRec} {rest : List Stimulus} {e : DecodeError}
    (hx : s.inputs = .config r :: rest) (hd : r.decode s.cfg = .error e) : step s = .refused (refusalOf e) := by
  simp only [step, hx, runStimulus, runConfig, takeStimulus_cfg, hd]

/-- Settles O10: the pointer is looked at before the reference, and each has its own error. -/
theorem overwideOperandsAreRefused : Obligations.OverwideOperandsAreRefused := by
  refine fun s rest => ⟨fun r hx hptr => ?_, fun r hx hptr href => ?_, fun r hx href => ?_⟩
  · have hd : decode s.cfg (.request r) = .error .pointerTooWide := by
      simp [decode, Config.addrFits, hptr]
    exact step_request_error hx hd
  · have hd : decode s.cfg (.request r) = .error .referenceTooWide := by
      simp [decode, Config.addrFits, Config.refFits, hptr, href]
    exact step_request_error hx hd
  · have hd : r.decode s.cfg = .error .referenceTooWide := by
      rw [CfgRec.decode, if_neg]
      simp only [CfgRec.wf, Config.refFits, Bool.and_eq_true, decide_eq_true_eq]
      omega
    exact step_config_error hx hd

end Sys2Proof.Machine
end

section
/-! PROOFS. Host requests (spec/40_host_requests.md): the acceptance check and the two accept steps, CONFIG, host reads
and `wait`, what of an event depends on the callback, and the two transfers of any length that end in OK. -/

namespace Sys2Proof.Machine

/-! ### The acceptance check (R120, R124) -/

section
variable {busy : Bool} {cap len : Nat} {dir : Dir} {addr : BusAddr}

theorem acceptCheck_of_busy (h : busy = true) : acceptCheck busy cap dir addr len = some .busy := if_pos h

theorem acceptCheck_of_bad_length (hidle : busy = false) (h : len = 0 ∨ cap < len) :
    acceptCheck busy cap dir addr len = some .badParameter := by
  rcases h with h | h <;> simp [acceptCheck, hidle, h]

theorem acceptCheck_of_valid (hidle : busy = false) (hpos : 1 ≤ len) (hcap : len ≤ cap) :
    acceptCheck busy cap dir addr len = if dir = .read ∧ addr = 0 then some .badParameter else none := by
  simp [acceptCheck, hidle, show len ≠ 0 by omega, show ¬cap < len by omega]

end

section
variable {cb : Bool} {addr : BusAddr} {len ptr ref : Nat} {s : State}

theorem exec_send_of_refused {code : ResCode} (h : acceptCheck s.busy s.cfg.bufCap .write addr len = some code) :
    exec (.send cb addr len ptr ref) s = .next { s with outs := s.outs ++ [.response code] } := by
  show execSend cb addr len ptr ref s = _
  rw [execSend, sendRequest, h]
  rfl

theorem exec_receive_of_refused {code : ResCode} (h : acceptCheck s.busy s.cfg.bufCap .read addr len = some code) :
    exec (.receive cb addr len ptr ref) s = .next { s with outs := s.outs ++ [.response code] } := by
  show execReceive cb addr len ptr ref s = _
  rw [execReceive, receiveRequest, h]
  rfl

/-- A code that does not depend on the direction refuses both requests alike. -/
theorem exec_request_of_refused {code : ResCode}
    (h : ∀ dir, acceptCheck s.busy s.cfg.bufCap dir addr len = some code) :
    ∀ i ∈ [Instr.send cb addr len ptr ref, .receive cb addr len ptr ref],
      exec i s = .next { s with outs := s.outs ++ [.response code] } := by
  simp [exec_send_of_refused (h .write), exec_receive_of_refused (h .read)]

/-- Any address will do for SEND, 0 included (R120). -/
theorem exec_send_of_valid (hidle : s.busy = false) (hpos : 1 ≤ len) (hcap : len ≤ s.cfg.bufCap) :
    exec (.send cb addr len ptr ref) s = .next (acceptSend cb addr len ptr ref s) := by
  have hcheck : acceptCheck s.busy s.cfg.bufCap .write addr len = none := by
    simp [acceptCheck_of_valid hidle hpos hcap]
  show execSend cb addr len ptr ref s = _
  rw [execSend, sendRequest, hcheck]

theorem exec_receive_of_valid (hidle : s.busy = false) (hpos : 1 ≤ len) (hcap : len ≤ s.cfg.bufCap)
    (haddr : addr ≠ 0) :
    exec (.receive cb addr len ptr ref) s = .next (acceptReceive cb addr len ptr ref s) := by
  have hcheck : acceptCheck s.busy s.cfg.bufCap .read addr len = none := by
    rw [acceptCheck_of_valid hidle hpos hcap, if_neg fun h => haddr h.2]
  show execReceive cb addr len ptr ref s = _
  rw [execReceive, receiveRequest, hcheck]

end

/-- Settles O11: each clause fixes which test of the check fails first, and the request follows its answer. -/
theorem acceptanceCheckOrder : Obligations.AcceptanceCheckOrder := by
  intro s cb addr len ptr ref
  refine ⟨fun hbusy => ?_, fun hidle hlen => ?_, fun hidle hpos hcap haddr => ?_, fun hidle hpos hcap => ⟨?_, ?_⟩⟩
  · exact exec_request_of_refused fun _ => acceptCheck_of_busy hbusy
  · exact exec_request_of_refused fun _ => acceptCheck_of_bad_length hidle hlen
  · exact exec_receive_of_refused (by simp [acceptCheck_of_valid hidle hpos hcap, haddr])
  · exact exec_send_of_valid hidle hpos hcap
  · exact exec_receive_of_valid hidle hpos hcap

/-! ### The accept steps (R121, R122) -/

/-- Settles O12: `copySource_spec` from index 0 is the copy loop, and `len` is within the buffer. -/
theorem acceptedSendFillsDescriptor : Obligations.AcceptedSendFillsDescriptor := by
  intro s cb addr len src ref hidle hpos hcap hbuf
  obtain ⟨buf, hcopy, hlength, hbytes⟩ := copySource_spec src len 0 s
  refine ⟨buf, ?_, hlength.trans hbuf, fun k hk => ?_, fun k hk => ?_⟩
  · rw [exec_send_of_valid hidle hpos hcap, acceptSend, hcopy, ← List.range_eq_range']
    simp [armStart, respond, busCmd, emit, setBusy, setDesc, Cmd.code, hostAddr]
  · rw [hbytes, if_pos (by omega), hostAddr]
  · rw [hbytes, if_neg (by omega)]

/-- Settles O13: the accept step of RECEIVE has no loop, so its next state is read off. -/
theorem acceptedReceiveFillsDescriptor : Obligations.AcceptedReceiveFillsDescriptor := by
  intro s cb addr len dst ref hidle hpos hcap haddr
  rw [exec_receive_of_valid hidle hpos hcap haddr]
  simp [acceptReceive, armStart, respond, busCmd, emit, setBusy, setDesc, Cmd.code]

/-! ### CONFIG, host reads and `wait` (R125 to R127) -/

theorem step_config {s : State} {r : CfgRec} {rest : List Stimulus} (hx : s.inputs = .config r :: rest)
    (hr : r.wf s.cfg = true) : step s = .next (configStep r (takeStimulus rest s)) := by
  simp [step, hx, runStimulus, runConfig, CfgRec.decode, hr]

theorem step_hostRead {s : State} {what : ReadSel} {rest : List Stimulus} (hx : s.inputs = .hostRead what :: rest) :
    step s = .next (readStep what (takeStimulus rest s)) := by
  simp only [step, hx, runStimulus]

theorem step_wait {s : State} {rest : List Stimulus} (hx : s.inputs = .wait :: rest) :
    step s = .next (waitStep (takeStimulus rest s)) := by
  simp only [step, hx, runStimulus]

theorem takeInterrupt_eq_none {l : List Stimulus} (h : ∀ x ∈ l, x.interrupts = false) : takeInterrupt l = none := by
  induction l with
  | nil => rfl
  | cons x l ih =>
    obtain ⟨hx, hl⟩ := List.forall_mem_cons.mp h
    simp [takeInterrupt, hx, ih hl]

/-- Settles O43: the two bookkeeping fields are those `configStep` gives. -/
theorem configWritesTheTable : Obligations.ConfigWritesTheTable :=
  fun _ _ _ hx hr => ⟨_, _, step_config hx hr⟩

/-- Settles O44: `readStep` on the state whose outputs have been cleared. -/
theorem hostReadsChangeNothing : Obligations.HostReadsChangeNothing :=
  fun _ _ => ⟨step_hostRead, step_hostRead, step_hostRead⟩

/-- Settles O45: the loop ends, or goes round with nothing to interrupt it, or lets the event at the head go first. -/
theorem waitSpinsWhileBusy : Obligations.WaitSpinsWhileBusy := by
  intro s rest hx
  refine ⟨fun hidle => ?_, fun hbusy hquiet => ?_, fun hbusy e rest' hrest => ?_⟩
  · rw [step_wait hx]
    simp [waitStep, hidle, takeStimulus, emit]
  · rw [step_wait hx]
    simp [waitStep, hbusy, takeInterrupt_eq_none hquiet, takeStimulus, emit, hx]
  · rw [step_wait hx, hrest]
    simp [waitStep, hbusy, takeInterrupt, Stimulus.interrupts, takeStimulus, emit]

/-! ### What the callback changes (R123, R190) -/

/-- The state with another callback in the descriptor. -/
def withCallback (cb : Bool) (ref : Nat) (s : State) : State :=
  { s with desc := { s.desc with cbValid := cb, cbRef := ref } }

/-- How one rule ends from two states that differ in the callback only: in states that again differ in it only, or
with one `Deliver` on such states. -/
inductive SameUntilDelivery (cb : Bool) (ref : Nat) : State → State → Prop where
  | undelivered (v : State) : SameUntilDelivery cb ref v (withCallback cb ref v)
  | delivered (r : ResCode) (v : State) : SameUntilDelivery cb ref (deliver r v) (deliver r (withCallback cb ref v))

/-- A branch on a condition both states share. -/
theorem SameUntilDelivery.ite {cb : Bool} {ref : Nat} {b : Bool} {v v' w w' : State}
    (hv : SameUntilDelivery cb ref v v') (hw : SameUntilDelivery cb ref w w') :
    SameUntilDelivery cb ref (if b then v else w) (if b then v' else w') := by
  cases b
  · exact hw
  · exact hv

section
variable (cb : Bool) (ref : Nat) (s : State)

theorem sendNext_sameUntilDelivery :
    SameUntilDelivery cb ref (sendNext s) (sendNext (withCallback cb ref s)) :=
  .ite (.undelivered (busCmd .nack (setIdx (s.desc.idx + 1) (busOut (bufByte s.desc s.desc.idx) s))))
    (.delivered .ok (busCmd .stop s))

theorem spendRetry_withCallback : spendRetry (withCallback cb ref s) = withCallback cb ref (spendRetry s) := by
  unfold spendRetry
  rw [apply_ite (withCallback cb ref)]
  rfl

theorem storeInput_withCallback : storeInput (withCallback cb ref s) = withCallback cb ref (storeInput s) := by
  unfold storeInput
  rw [apply_ite (withCallback cb ref)]
  rfl

theorem addressRefused_sameUntilDelivery :
    SameUntilDelivery cb ref (addressRefused s) (addressRefused (withCallback cb ref s)) := by
  simp only [addressRefused, spendRetry_withCallback]
  exact .ite (.undelivered (busCmd .start (spendRetry s))) (.delivered .notFound (busCmd .stop (spendRetry s)))

/-- The requests of a handler that starts no transaction are answered from `busy`, the buffer capacity and the
request alone (R120). -/
theorem handlerRuns_withCallback {sel : HandlerSel} (hv : handlerValid sel s = true)
    (h : handlerStartsRequest sel s = false) :
    handlerRuns (withCallback cb ref s) = withCallback cb ref (handlerRuns s) := by
  obtain ⟨codes, hcodes⟩ := handlerStartsRequest_false hv h
  rw [handlerRuns_refused hcodes, handlerRuns_refused (s := withCallback cb ref s) hcodes]
  rfl

theorem callRx_withCallback {a : Action} (h : handlerStartsRequest .rx s = false) :
    callRx a (withCallback cb ref s) = ((callRx a s).1, withCallback cb ref (callRx a s).2) := by
  unfold callRx
  show (if s.srt.rxValid then _ else _) = _
  split
  · exact congrArg (Prod.mk _)
      (handlerRuns_withCallback cb ref (emit (.call .rx s.srt.rxRef a) s) (sel := .rx) ‹_› h)
  · rfl

theorem callTx_withCallback {a : Action} (h : handlerStartsRequest .tx s = false) :
    callTx a (withCallback cb ref s) = ((callTx a s).1, withCallback cb ref (callTx a s).2) := by
  unfold callTx
  show (if s.srt.txValid then _ else _) = _
  split
  · exact congrArg (Prod.mk _)
      (handlerRuns_withCallback cb ref (emit (.call .tx s.srt.txRef a) s) (sel := .tx) ‹_› h)
  · rfl

theorem answer_withCallback (b : Bool) : answer (b, withCallback cb ref s) = withCallback cb ref (answer (b, s)) := by
  cases b <;> rfl

end

section
variable {cb : Bool} {ref : Nat} {s t u : State}

/-- A slave rule never delivers: `v` and `w` are what it makes of the two states. -/
theorem SameUntilDelivery.slaveRule {sel : HandlerSel} {v w : State} (ht : slaveRule sel s v = .next t)
    (hu : slaveRule sel (withCallback cb ref s) w = .next u)
    (hw : handlerStartsRequest sel s = false → w = withCallback cb ref v) : SameUntilDelivery cb ref t u := by
  obtain ⟨hstart, rfl⟩ := slaveRule_next ht
  obtain ⟨-, rfl⟩ := slaveRule_next hu
  rw [hw hstart]
  exact .undelivered t

/-- No event rule reads the callback before the gate (R123). -/
theorem exec_sameUntilDelivery {i : Instr} (hi : i.isEvent = true) (ht : exec i s = .next t)
    (hu : exec i (withCallback cb ref s) = .next u) : SameUntilDelivery cb ref t u := by
  cases i
  case send => cases hi
  case receive => cases hi
  case srSlaAck => exact .slaveRule ht hu fun h => by rw [callRx_withCallback cb ref s h, answer_withCallback]
  case srGcallAck => exact .slaveRule ht hu fun h => by rw [callRx_withCallback cb ref s h, answer_withCallback]
  case stSlaAck => exact .slaveRule ht hu fun h => by rw [callTx_withCallback cb ref s h, answer_withCallback]
  case stDataAck => exact .slaveRule ht hu fun h => by rw [callTx_withCallback cb ref s h, answer_withCallback]
  case srData80 => exact .slaveRule ht hu fun h => by rw [inboundData, callRx_withCallback cb ref s h]; rfl
  case srData90 => exact .slaveRule ht hu fun h => by rw [inboundData, callRx_withCallback cb ref s h]; rfl
  case srStop => exact .slaveRule ht hu fun h => by rw [callRx_withCallback cb ref s h]; rfl
  case stLastAck => exact .slaveRule ht hu fun h => by rw [callTx_withCallback cb ref s h]; rfl
  case stDataNack => exact .slaveRule ht hu fun h => by rw [callTx_withCallback cb ref s h]; rfl
  all_goals
    cases ht
    cases hu
  case start => exact .undelivered (sendAddress s)
  case repStart => exact .undelivered (sendAddress s)
  case arbLost => exact .undelivered (busCmd .start s)
  case mtSlaAck => exact sendNext_sameUntilDelivery cb ref s
  case mtDataAck => exact sendNext_sameUntilDelivery cb ref s
  case mtSlaNack => exact addressRefused_sameUntilDelivery cb ref s
  case mrSlaNack => exact addressRefused_sameUntilDelivery cb ref s
  case mtDataNack =>
    exact .ite (.delivered .aborted (busCmd .stop s)) (.delivered .rejected (busCmd .stop s))
  case mrSlaAck => exact .ite (.undelivered (busCmd .ack s)) (.undelivered (busCmd .nack s))
  case mrDataAck =>
    rw [storeInput_withCallback]
    exact .ite (.undelivered (busCmd .nack (storeInput s))) (.undelivered (busCmd .ack (storeInput s)))
  case mrDataNack =>
    rw [storeInput_withCallback]
    exact .delivered .ok (busCmd .stop (storeInput s))
  all_goals exact .delivered .unknown (busCmd .reset s)

end

/-- Settles O40: what the gate does on both states is in `deliver_frame`, and nothing it puts out is a command or a byte
for the engine. -/
theorem callbackModeOnlyChangesDelivery : Obligations.CallbackModeOnlyChangesDelivery := by
  intro i s t u cb ref hi ht hu
  cases exec_sameUntilDelivery hi ht hu with
  | undelivered => exact ⟨rfl, rfl, rfl, rfl, rfl, rfl, rfl⟩
  | delivered r v =>
    obtain ⟨_, post, hv, hpost, -⟩ := deliver_frame r v
    obtain ⟨_, post', hv', hpost', -⟩ := deliver_frame r (withCallback cb ref v)
    rw [hv, hv']
    refine ⟨rfl, rfl, rfl, rfl, rfl, ?_, ?_⟩
    · simp [busCmds_post hpost, busCmds_post hpost', withCallback]
    · simp [bytesOut_append, bytesOut_post hpost, bytesOut_post hpost', withCallback]

/-! ### Steps of a transfer -/

/-- One step as a transfer sees it: from `s` to a state `t` with this descriptor, flag, memory and rest of the stimuli;
`bytes` go to the bus engine. -/
structure StepsTo (s t : State) (desc : Desc) (busy : Bool) (mem : Memory) (rest : List Stimulus)
    (bytes : List Byte) : Prop where
  step_eq : step s = .next t
  cfg_eq : t.cfg = s.cfg
  desc_eq : t.desc = desc
  busy_eq : t.busy = busy
  mem_eq : t.mem = mem
  inputs_eq : t.inputs = rest
  bytes_eq : bytesOut t.outs = bytes

/-- A bus event that brings one byte and nothing else: what `inputEvent` presents, and `plainEvent` with 0. -/
def byteEvent (status input : Byte) : BusEvent := ⟨status, input, ⟨false, none, []⟩, []⟩

theorem plainEvent_eq (w : Byte) : plainEvent w = .event (byteEvent w 0) := rfl

/-- After its rule an event step changes the engine's own state only. -/
theorem stepsTo_of_event {s u : State} {e : BusEvent} {rest : List Stimulus} {i : Instr}
    (hx : s.inputs = .event e :: rest) (hd : decodeStatus s.cfg e.status = i)
    (he : exec i (openEvent e (takeStimulus rest s)) = .next u) :
    ∃ t, StepsTo s t u.desc u.busy u.mem rest (bytesOut u.outs) := by
  obtain ⟨g, hg⟩ := step_event hx hd he
  obtain ⟨hcfg, -, -, -, hinputs, -⟩ := meaningsLeaveTheEnvironment i _ u he
  exact ⟨_, hg, hcfg, rfl, rfl, rfl, hinputs, rfl⟩

/-- A request step too changes only the engine's own state after its rule. -/
theorem stepsTo_of_request {s u : State} {i : Instr} {r : RawReq} {rest : List Stimulus}
    (hx : s.inputs = .request r :: rest) (hr : encode i = .request r) (hwf : i.wf s.cfg = true)
    (he : exec i (openRequest (takeStimulus rest s)) = .next u) :
    ∃ t, StepsTo s t u.desc u.busy u.mem rest (bytesOut u.outs) := by
  obtain ⟨g, hg⟩ := closeRequest_eq u
  obtain ⟨hcfg, -, -, -, hinputs, -⟩ := meaningsLeaveTheEnvironment i _ u he
  have hstep : step s = .next { u with eng := g } := by
    rw [step_request hx (decode_request_of_encode hwf hr), he, onNext, hg]
  exact ⟨_, hstep, hcfg, rfl, rfl, rfl, hinputs, rfl⟩

/-- START: the address byte (R141). -/
theorem stepsTo_start {s : State} {e : BusEvent} {rest : List Stimulus} (hx : s.inputs = .event e :: rest)
    (he : statusEvent s.cfg e.status = .start) :
    ∃ t, StepsTo s t s.desc s.busy s.mem rest [addrByte s.desc.addr s.desc.dir] :=
  stepsTo_of_event hx (decodeStatus_of_event he fun _ => rfl) rfl

/-- Without a callback `Deliver` stores the code and ends the transaction (R190). -/
theorem deliver_of_no_callback {s : State} (hbusy : s.busy = true) (hcb : s.desc.cbValid = false) (r : ResCode) :
    deliver r s = setBusy false (setResult r s) := by
  simp [deliver, hbusy, hcb]

/-! ### A write whose every byte is acknowledged (95_test_vectors.md P1) -/

theorem memReads_bytes (f : Nat → Nat) (l : List Nat) : bytesOut (l.map fun j => .memRead (f j)) = [] := by
  induction l with
  | nil => rfl
  | cons x l ih => exact ih

/-- The event of the two rows that ask for the next byte (R143, R144). -/
def AsksForByte (c : Config) (e : BusEvent) : Prop :=
  statusEvent c e.status = .mtSlaAck ∨ statusEvent c e.status = .mtDataAck

section
variable {s : State} {e : BusEvent} {rest : List Stimulus}

/-- Both rows run `sendNext`. -/
theorem stepsTo_sendNext {u : State} (hx : s.inputs = .event e :: rest) (he : AsksForByte s.cfg e)
    (hu : sendNext (openEvent e (takeStimulus rest s)) = u) :
    ∃ t, StepsTo s t u.desc u.busy u.mem rest (bytesOut u.outs) :=
  he.elim
    (fun he => stepsTo_of_event hx (decodeStatus_of_event he fun _ => rfl) (congrArg Host.Outcome.next hu))
    fun he => stepsTo_of_event hx (decodeStatus_of_event he fun _ => rfl) (congrArg Host.Outcome.next hu)

theorem stepsTo_nextByte (hx : s.inputs = .event e :: rest) (he : AsksForByte s.cfg e)
    (hlt : s.desc.idx < s.desc.len) :
    ∃ t, StepsTo s t { s.desc with idx := s.desc.idx + 1 } s.busy s.mem rest [bufByte s.desc s.desc.idx] := by
  obtain ⟨-, hnext⟩ | ⟨hle, -⟩ := sendNext_cases (openEvent e (takeStimulus rest s))
  · exact stepsTo_sendNext hx he hnext
  · exact absurd hlt (Nat.not_lt.2 hle)

theorem stepsTo_writeDone (hx : s.inputs = .event e :: rest) (he : AsksForByte s.cfg e)
    (hle : s.desc.len ≤ s.desc.idx) (hbusy : s.busy = true) (hcb : s.desc.cbValid = false) :
    ∃ t, StepsTo s t { s.desc with result := .ok } false s.mem rest [] := by
  obtain ⟨hlt, -⟩ | ⟨-, hnext⟩ := sendNext_cases (openEvent e (takeStimulus rest s))
  · exact absurd hlt (Nat.not_lt.2 hle)
  · rw [deliver_of_no_callback] at hnext
    · exact stepsTo_sendNext hx he hnext
    · exact hbusy
    · exact hcb

end

/-- From index `idx` on, one acknowledgement for each byte still to send and one for the last of them. -/
theorem steps_acknowledged {es : List BusEvent} {s : State} (hx : s.inputs = es.map .event)
    (hrows : ∀ e ∈ es, AsksForByte s.cfg e) (hidx : s.desc.idx ≤ s.desc.len)
    (hcount : s.desc.idx + es.length = s.desc.len + 1) (hbusy : s.busy = true) (hcb : s.desc.cbValid = false) :
    ∃ t, steps es.length s = .next t ∧ t.busy = false ∧ t.desc.result = .ok ∧ t.desc.idx = s.desc.len ∧
      t.inputs = [] ∧ bytesOut (outputsOf es.length s) =
        (List.range' s.desc.idx (s.desc.len - s.desc.idx)).map (bufByte s.desc) := by
  induction es generalizing s with
  | nil =>
    rw [List.length_nil] at hcount
    omega
  | cons e es ih =>
    obtain ⟨he, hes⟩ := List.forall_mem_cons.mp hrows
    rw [List.length_cons] at hcount ⊢
    obtain hlt | heq := Nat.lt_or_eq_of_le hidx
    · obtain ⟨t, hstep, hcfg, hdesc, hbusy', -, hinputs, hbytes⟩ := stepsTo_nextByte hx he hlt
      have htail := ih hinputs (by rw [hcfg]; exact hes) (by rw [hdesc]; exact hlt)
        (by rw [hdesc]; show s.desc.idx + 1 + es.length = s.desc.len + 1; omega) (hbusy'.trans hbusy)
        (by rw [hdesc]; exact hcb)
      have hrange : List.range' s.desc.idx (s.desc.len - s.desc.idx) =
          s.desc.idx :: List.range' (s.desc.idx + 1) (s.desc.len - (s.desc.idx + 1)) := by
        rw [← List.range'_succ]
        congr 1
        omega
      rw [steps_succ hstep, outputsOf_succ hstep, bytesOut_append, hbytes, hrange]
      rw [hdesc] at htail
      obtain ⟨w, hw, hwbusy, hok, hwidx, hwinputs, hwbytes⟩ := htail
      exact ⟨w, hw, hwbusy, hok, hwidx, hwinputs, congrArg (bufByte s.desc s.desc.idx :: ·) hwbytes⟩
    · obtain rfl : es = [] := List.eq_nil_of_length_eq_zero (by omega)
      obtain ⟨t, hstep, -, hdesc, hbusy', -, hinputs, hbytes⟩ := stepsTo_writeDone hx he heq.ge hbusy hcb
      rw [List.length_nil, steps_succ hstep, outputsOf_succ hstep, bytesOut_append, hbytes, heq, Nat.sub_self]
      exact ⟨t, rfl, hbusy', by rw [hdesc], by rw [hdesc, ← heq], hinputs, rfl⟩

/-- An accepted SEND without callback, its operands fitting (R121). -/
theorem stepsTo_send {s : State} {addr : BusAddr} {len src : Nat} {rest : List Stimulus}
    (hx : s.inputs = .request ⟨requestHeader false addr .write, len, src, 0⟩ :: rest)
    (hidle : s.busy = false) (hpos : 1 ≤ len) (hcap : len ≤ s.cfg.bufCap)
    (hbuf : s.desc.buf.length = s.cfg.bufCap) (hsrc : src < 2 ^ s.cfg.addrW) :
    ∃ t buf,
      StepsTo s t
        { s.desc with
          addr := addr, dir := .write, buf := buf, len := len, idx := 0, tries := s.cfg.maxTries,
          cbValid := false, cbRef := 0 }
        true s.mem rest [] ∧
      ∀ k, k < len → buf[k]? = some (s.mem.read ((src + k) % 2 ^ s.cfg.addrW)) := by
  obtain ⟨buf, hexec, -, hcopied, -⟩ :=
    acceptedSendFillsDescriptor (openRequest (takeStimulus rest s)) false addr len src 0 hidle hpos hcap hbuf
  have hwf : (Instr.send false addr len src 0).wf s.cfg = true := by
    simp [Instr.wf, Config.addrFits, Config.refFits, hsrc]
  obtain ⟨t, ht⟩ := stepsTo_of_request hx rfl hwf hexec
  have hbytes : bytesOut
      (((List.range len).map fun k => Output.memRead ((src + k) % 2 ^ s.cfg.addrW)) ++
        [.busCmd .start, .response .accepted]) = [] := by
    rw [bytesOut_append, memReads_bytes]
    rfl
  exact ⟨t, buf, { ht with bytes_eq := ht.bytes_eq.trans hbytes }, hcopied⟩

/-- Settles O53: the request fills the buffer, START sends the address byte, and `steps_acknowledged` runs from
index 0. -/
theorem acknowledgedWriteEndsInOk : Obligations.AcknowledgedWriteEndsInOk := by
  intro s addr len src start addrAck dataAck hstart haddr hdata hidle hpos hcap hbuf hsrc hx
  obtain ⟨t₁, buf, ⟨hstep₁, hcfg₁, hdesc₁, hbusy₁, -, hinputs₁, hbytes₁⟩, hcopied⟩ :=
    stepsTo_send hx hidle hpos hcap hbuf hsrc
  obtain ⟨t₂, hstep₂, hcfg₂, hdesc₂, hbusy₂, -, hinputs₂, hbytes₂⟩ :=
    stepsTo_start hinputs₁ (by rw [hcfg₁]; exact hstart)
  rw [hdesc₁] at hdesc₂ hbytes₂
  have hacks : t₂.inputs = (byteEvent addrAck 0 :: List.replicate len (byteEvent dataAck 0)).map .event := by
    rw [hinputs₂, List.map_cons, List.map_replicate, plainEvent_eq, plainEvent_eq]
  have hrows : ∀ e ∈ byteEvent addrAck 0 :: List.replicate len (byteEvent dataAck 0), AsksForByte t₂.cfg e := by
    rw [hcfg₂, hcfg₁]
    exact List.forall_mem_cons.mpr ⟨.inl haddr, fun e he => .inr (List.eq_of_mem_replicate he ▸ hdata)⟩
  obtain ⟨t, hsteps, hbusy, hok, hidx, hinputs, hbytes⟩ :=
    steps_acknowledged hacks hrows (by rw [hdesc₂]; exact Nat.zero_le len) (by simp [hdesc₂])
      (hbusy₂.trans hbusy₁) (by rw [hdesc₂])
  rw [hdesc₂] at hidx hbytes
  rw [List.length_cons, List.length_replicate] at hsteps hbytes
  refine ⟨t, ?_, hbusy, hok, hidx, hinputs, ?_⟩
  · rw [steps_succ hstep₁, steps_succ hstep₂, hsteps]
  · rw [outputsOf_succ hstep₁, outputsOf_succ hstep₂, bytesOut_append, bytesOut_append, hbytes₁, hbytes₂, hbytes]
    refine congrArg (addrByte addr .write :: ·) ?_
    rw [Nat.sub_zero, ← List.range_eq_range']
    exact List.map_congr_left fun k hk => bufByte_of_getElem? (hcopied k (List.mem_range.1 hk))

/-! ### Bytes stored one after another (R62, R68) -/

/-- Distinct offsets of a window no longer than the address space are distinct addresses. -/
theorem hostAddr_ne {c : Config} {base j k : Nat} (hlt : j < k) (hwindow : k < j + 2 ^ c.addrW) :
    hostAddr c base j ≠ hostAddr c base k := by
  intro heq
  have hdvd : 2 ^ c.addrW ∣ base + k - (base + j) := (Nat.modEq_iff_dvd' (by omega)).1 heq
  have hle := Nat.le_of_dvd (by omega) hdvd
  omega

/-- The memory after bytes have been stored at the offsets `i`, `i + 1`, … of a destination. -/
def Memory.storeFrom (c : Config) (dst : Nat) : Nat → List Byte → Memory → Memory
  | _, [], m => m
  | i, v :: vs, m => Memory.storeFrom c dst (i + 1) vs (m.write (hostAddr c dst i) v)

section
variable {c : Config} {dst : Nat}

theorem Memory.read_storeFrom_of_ne {vs : List Byte} {i a : Nat} {m : Memory} (hm : m.wf)
    (ha : ∀ k, k < vs.length → a ≠ hostAddr c dst (i + k)) : (m.storeFrom c dst i vs).read a = m.read a := by
  induction vs generalizing i m with
  | nil => rfl
  | cons v vs ih =>
    have htail : ∀ k, k < vs.length → a ≠ hostAddr c dst (i + 1 + k) := fun k hk => by
      rw [Nat.add_right_comm, Nat.add_assoc]
      exact ha (k + 1) (Nat.succ_lt_succ hk)
    rw [Memory.storeFrom, ih (Memory.write_wf hm _ _) htail, Memory.read_write hm,
      if_neg (show a ≠ hostAddr c dst i from ha 0 (Nat.succ_pos _))]

/-- Each byte is read back where it was stored: no later one reaches its address. -/
theorem Memory.read_storeFrom {vs : List Byte} {i k : Nat} {b : Byte} {m : Memory} (hm : m.wf)
    (hlength : vs.length ≤ 2 ^ c.addrW) (hk : vs[k]? = some b) :
    (m.storeFrom c dst i vs).read (hostAddr c dst (i + k)) = b := by
  induction vs generalizing i k m with
  | nil => cases hk
  | cons v vs ih =>
    rw [List.length_cons] at hlength
    have hwrite := Memory.write_wf hm (hostAddr c dst i) v
    cases k with
    | zero =>
      have hlater : ∀ k, k < vs.length → hostAddr c dst i ≠ hostAddr c dst (i + 1 + k) := fun k hk =>
        hostAddr_ne (by omega) (by omega)
      obtain rfl : v = b := Option.some.inj hk
      calc (m.storeFrom c dst i (v :: vs)).read (hostAddr c dst i)
          _ = (m.write (hostAddr c dst i) v).read (hostAddr c dst i) := Memory.read_storeFrom_of_ne hwrite hlater
          _ = v := (Memory.read_write hm _ _ _).trans (if_pos rfl)
    | succ k =>
      rw [Memory.storeFrom, Nat.add_comm k 1, ← Nat.add_assoc]
      exact ih hwrite (Nat.le_of_succ_le hlength) hk

end

/-! ### A read whose last byte meets a no-acknowledge (95_test_vectors.md P7) -/

section
variable {s : State} {e : BusEvent} {rest : List Stimulus}

/-- An accepted RECEIVE without callback, its operands fitting (R122). -/
theorem stepsTo_receive {addr : BusAddr} {len dst : Nat}
    (hx : s.inputs = .request ⟨requestHeader false addr .read, len, dst, 0⟩ :: rest)
    (hidle : s.busy = false) (hpos : 1 ≤ len) (hcap : len ≤ s.cfg.bufCap) (haddr : addr ≠ 0)
    (hdst : dst < 2 ^ s.cfg.addrW) :
    ∃ t, StepsTo s t
      { s.desc with
        addr := addr, dir := .read, dst := dst, len := len, idx := 0, tries := s.cfg.maxTries,
        cbValid := false, cbRef := 0 }
      true s.mem rest [] := by
  have hexec :=
    acceptedReceiveFillsDescriptor (openRequest (takeStimulus rest s)) false addr len dst 0 hidle hpos hcap haddr
  have hwf : (Instr.receive false addr len dst 0).wf s.cfg = true := by
    simp [Instr.wf, Config.addrFits, Config.refFits, hdst]
  exact stepsTo_of_request hx rfl hwf hexec

theorem exec_mrSlaAck_eq (s : State) : ∃ c, exec .mrSlaAck s = .next (busCmd c s) :=
  ⟨_, congrArg Host.Outcome.next (apply_ite (busCmd · s) (manyWanted s.desc = true) .ack .nack).symm⟩

theorem exec_mrDataAck_eq (s : State) : ∃ c, exec .mrDataAck s = .next (busCmd c (storeInput s)) :=
  ⟨_, congrArg Host.Outcome.next
    (apply_ite (busCmd · (storeInput s)) (lastByteNext (storeInput s).desc = true) .nack .ack).symm⟩

/-- R147: the command depends on `len`, nothing else changes. -/
theorem stepsTo_readAddressed (hx : s.inputs = .event e :: rest) (he : statusEvent s.cfg e.status = .mrSlaAck) :
    ∃ t, StepsTo s t s.desc s.busy s.mem rest [] := by
  obtain ⟨c, hexec⟩ := exec_mrSlaAck_eq (openEvent e (takeStimulus rest s))
  exact stepsTo_of_event hx (decodeStatus_of_event he fun _ => rfl) hexec

/-- Below `len` the guard of R149 and R150 holds. -/
theorem storeInput_of_lt (hdir : s.desc.dir = .read) (hlt : s.desc.idx < s.desc.len) :
    storeInput s = setIdx (s.desc.idx + 1) (hmemWrite (storeAddr s) s.bei.input s) := by
  have hstore : mayStore s.desc = true := by simp [mayStore, hdir, hlt]
  exact if_pos hstore

/-- R149. -/
theorem stepsTo_byteReceived (hx : s.inputs = .event e :: rest) (he : statusEvent s.cfg e.status = .mrDataAck)
    (hdir : s.desc.dir = .read) (hlt : s.desc.idx < s.desc.len) :
    ∃ t, StepsTo s t { s.desc with idx := s.desc.idx + 1 } s.busy
      (s.mem.write (hostAddr s.cfg s.desc.dst s.desc.idx) e.input) rest [] := by
  obtain ⟨c, hexec⟩ := exec_mrDataAck_eq (openEvent e (takeStimulus rest s))
  rw [storeInput_of_lt (s := openEvent e (takeStimulus rest s)) hdir hlt] at hexec
  exact stepsTo_of_event hx (decodeStatus_of_event he fun _ => rfl) hexec

/-- R150. -/
theorem stepsTo_readDone (hx : s.inputs = .event e :: rest) (he : statusEvent s.cfg e.status = .mrDataNack)
    (hdir : s.desc.dir = .read) (hlt : s.desc.idx < s.desc.len) (hbusy : s.busy = true)
    (hcb : s.desc.cbValid = false) :
    ∃ t, StepsTo s t { s.desc with idx := s.desc.idx + 1, result := .ok } false
      (s.mem.write (hostAddr s.cfg s.desc.dst s.desc.idx) e.input) rest [] := by
  have hexec : exec .mrDataNack (openEvent e (takeStimulus rest s)) =
      .next (deliver .ok (busCmd .stop (storeInput (openEvent e (takeStimulus rest s))))) := rfl
  rw [storeInput_of_lt (s := openEvent e (takeStimulus rest s)) hdir hlt, deliver_of_no_callback] at hexec
  · exact stepsTo_of_event hx (decodeStatus_of_event he fun _ => rfl) hexec
  · exact hbusy
  · exact hcb

end

/-- From index `idx` on, one event for each byte still wanted, the last one the no-acknowledge. -/
theorem steps_received {es : List BusEvent} {last : BusEvent} {s : State}
    (hx : s.inputs = es.map .event ++ [.event last]) (hacks : ∀ e ∈ es, statusEvent s.cfg e.status = .mrDataAck)
    (hnack : statusEvent s.cfg last.status = .mrDataNack) (hdir : s.desc.dir = .read)
    (hcount : s.desc.idx + es.length + 1 = s.desc.len) (hbusy : s.busy = true) (hcb : s.desc.cbValid = false) :
    ∃ t, steps (es.length + 1) s = .next t ∧ t.busy = false ∧ t.desc.result = .ok ∧ t.desc.idx = s.desc.len ∧
      t.inputs = [] ∧
      t.mem = s.mem.storeFrom s.cfg s.desc.dst s.desc.idx (es.map BusEvent.input ++ [last.input]) := by
  induction es generalizing s with
  | nil =>
    obtain ⟨t, hstep, -, hdesc, hbusy', hmem, hinputs, -⟩ :=
      stepsTo_readDone hx hnack hdir (by rw [← hcount]; simp) hbusy hcb
    rw [List.length_nil, steps_succ hstep]
    exact ⟨t, rfl, hbusy', by rw [hdesc], by rw [hdesc]; exact hcount, hinputs, hmem⟩
  | cons e es ih =>
    obtain ⟨he, hes⟩ := List.forall_mem_cons.mp hacks
    rw [List.length_cons] at hcount ⊢
    obtain ⟨t, hstep, hcfg, hdesc, hbusy', hmem, hinputs, -⟩ := stepsTo_byteReceived hx he hdir (by omega)
    have htail := ih hinputs (by rw [hcfg]; exact hes) (by rw [hcfg]; exact hnack) (by rw [hdesc]; exact hdir)
      (by rw [hdesc]; show s.desc.idx + 1 + es.length + 1 = s.desc.len; omega) (hbusy'.trans hbusy)
      (by rw [hdesc]; exact hcb)
    rw [hcfg, hdesc, hmem] at htail
    rw [steps_succ hstep]
    exact htail

/-- Settles O55: `steps_received` from index 0 stores the bytes one after another, and the window of the destination is
no longer than the address space. -/
theorem readDeliversBytesInOrder : Obligations.ReadDeliversBytesInOrder := by
  intro s addr dst bytes last start addrAck dataAck dataNack hstart hsla hack hnack hidle hwf haddr hdst hcap hwindow hx
  obtain ⟨t₁, hstep₁, hcfg₁, hdesc₁, hbusy₁, hmem₁, hinputs₁, -⟩ :=
    stepsTo_receive hx hidle (Nat.succ_pos _) hcap haddr hdst
  obtain ⟨t₂, hstep₂, hcfg₂, hdesc₂, hbusy₂, hmem₂, hinputs₂, -⟩ :=
    stepsTo_start hinputs₁ (by rw [hcfg₁]; exact hstart)
  rw [hcfg₁] at hcfg₂
  obtain ⟨t₃, hstep₃, hcfg₃, hdesc₃, hbusy₃, hmem₃, hinputs₃, -⟩ :=
    stepsTo_readAddressed hinputs₂ (by rw [hcfg₂]; exact hsla)
  rw [hcfg₂] at hcfg₃
  rw [hdesc₂, hdesc₁] at hdesc₃
  have hevents : t₃.inputs = (bytes.map (byteEvent dataAck)).map .event ++ [.event (byteEvent dataNack last)] := by
    rw [hinputs₃, List.map_map]
    rfl
  have hrows : ∀ e ∈ bytes.map (byteEvent dataAck), statusEvent t₃.cfg e.status = .mrDataAck := by
    rw [hcfg₃]
    exact List.forall_mem_map.mpr fun _ _ => hack
  obtain ⟨t, hsteps, hbusy, hok, hidx, hinputs, hmem⟩ :=
    steps_received hevents hrows (by rw [hcfg₃]; exact hnack) (by rw [hdesc₃]) (by simp [hdesc₃])
      (hbusy₃.trans (hbusy₂.trans hbusy₁)) (by rw [hdesc₃])
  have hinput : (bytes.map (byteEvent dataAck)).map BusEvent.input = bytes := by
    rw [List.map_map]
    exact List.map_id bytes
  rw [hcfg₃, hdesc₃, hmem₃, hmem₂, hmem₁, hinput] at hmem
  rw [hdesc₃] at hidx
  rw [List.length_map] at hsteps
  refine ⟨t, ?_, hbusy, hok, hidx, hinputs, fun k b hk => ?_, fun a ha => ?_⟩
  · rw [steps_succ hstep₁, steps_succ hstep₂, steps_succ hstep₃, hsteps]
  · have hread := Memory.read_storeFrom (c := s.cfg) (dst := dst) (i := 0) hwf (by simpa using hwindow) hk
    rw [Nat.zero_add] at hread
    rw [hmem]
    exact hread
  · rw [hmem]
    refine Memory.read_storeFrom_of_ne hwf fun k hk => ?_
    rw [Nat.zero_add]
    exact ha k (by simpa using hk)

end Sys2Proof.Machine
end

section
/-! PROOFS. Master events (spec/41_master_events.md): the frame of an event step, the exact next state of every master
row and of OTHER, and the retry budget over whole transfers. -/

namespace Sys2Proof.Machine

/-! ### The event step (R140) -/

/-- An event step: the decoded row runs between `openEvent` and `closeEvent`. -/
theorem step_of_event {s : State} {e : BusEvent} {rest : List Stimulus} (hx : s.inputs = .event e :: rest) :
    step s = onNext (closeEvent (decodeStatus s.cfg e.status))
      (exec (decodeStatus s.cfg e.status) (openEvent e (takeStimulus rest s))) := by
  simp only [step, hx, runStimulus, runEvent, takeStimulus_cfg]

/-- Settles O7: a status word always decodes, and `step_of_event` is the step. -/
theorem eventStepRunsDecodedInstruction : Obligations.EventStepRunsDecodedInstruction := by
  intro s e rest i hx hd
  obtain rfl : decodeStatus s.cfg e.status = i := Except.ok.inj hd
  refine ⟨rfl, ?_⟩
  rw [step_of_event hx]
  cases exec (decodeStatus s.cfg e.status) (openEvent e (takeStimulus rest s)) <;> rfl

/-- Settles O8: `openEvent` is a record update, and the two ends of a step leave all but the engine alone. -/
theorem eventStepFraming : Obligations.EventStepFraming :=
  fun s _ _ i => ⟨⟨_, rfl⟩, closeEvent_eq i s, closeRequest_eq s⟩

/-! ### Start conditions and arbitration loss (R141, R142, R151) -/

/-- Settles O19: both rows run `sendAddress`, and `addrByte_toNat` is the value of the byte. -/
theorem startSendsAddressByte : Obligations.StartSendsAddressByte := by
  intro s i hi
  refine ⟨addrByte s.desc.addr s.desc.dir, ?_, ?_⟩
  · have hrow : exec i s = .next (sendAddress s) := by
      obtain rfl | rfl : i = .start ∨ i = .repStart := by simpa using hi
      · rfl
      · rfl
    rw [hrow]
    simp [sendAddress, busCmd, busOut, emit, Cmd.code]
  · rw [addrByte_toNat]
    cases s.desc.dir <;> rfl

/-- Settles O27: the row is one bus command. -/
theorem arbitrationLossRestarts : Obligations.ArbitrationLossRestarts := fun _ => rfl

/-! ### Master transmit (R143 to R146) -/

section
variable {s : State}

theorem sendNext_of_lt (h : s.desc.idx < s.desc.len) :
    sendNext s =
      { s with
        desc := { s.desc with idx := s.desc.idx + 1 }
        bei := { s.bei with output := bufByte s.desc s.desc.idx, cmd := 4 }
        outs := s.outs ++ [.busOut (bufByte s.desc s.desc.idx), .busCmd .nack] } :=
  (sendNext_cases s).elim And.right fun hend => absurd h (Nat.not_lt.2 hend.1)

theorem sendNext_of_le (h : s.desc.len ≤ s.desc.idx) : sendNext s = deliver .ok (busCmd .stop s) :=
  (sendNext_cases s).elim (fun hnext => absurd h (Nat.not_le.2 hnext.1)) And.right

end

/-- Settles O20: the row runs `sendNext`, whose byte is that of the buffer wherever the buffer has one. -/
theorem addressAcknowledgedSendsByte : Obligations.AddressAcknowledgedSendsByte := fun _ =>
  ⟨fun hlt => ⟨_, fun _ => bufByte_of_getElem?, congrArg Host.Outcome.next (sendNext_of_lt hlt)⟩,
    fun hle => congrArg Host.Outcome.next (sendNext_of_le hle)⟩

/-- Settles O21: the row runs `sendNext` as MT_SLA_ACK does. -/
theorem dataAcknowledgedSendsByte : Obligations.DataAcknowledgedSendsByte :=
  addressAcknowledgedSendsByte

/-- The two rows of an address no-acknowledge share their meaning (R148). -/
theorem exec_of_address_nack {i : Instr} (hi : i = .mtSlaNack ∨ i = .mrSlaNack) (s : State) :
    exec i s = .next (addressRefused s) := by
  obtain rfl | rfl := hi
  · rfl
  · rfl

/-- Settles O22: each clause excludes one of the two cases of `addressRefused_cases`. -/
theorem addressNotAcknowledgedSpendsRetry : Obligations.AddressNotAcknowledgedSpendsRetry := by
  intro s i hi
  rw [exec_of_address_nack (by simpa using hi)]
  obtain ⟨hlt, heq⟩ | ⟨hle, heq⟩ := addressRefused_cases s
  · exact ⟨fun _ => congrArg Host.Outcome.next heq, fun h => absurd hlt (Nat.not_lt.2 h)⟩
  · exact ⟨fun h => absurd h (Nat.not_lt.2 hle), fun _ => congrArg Host.Outcome.next heq⟩

/-- Settles O23: the two cases of `execMtDataNack_cases` are the branches of the code delivered. -/
theorem dataNotAcknowledgedEndsTheWrite : Obligations.DataNotAcknowledgedEndsTheWrite := by
  intro s
  obtain ⟨hlt, heq⟩ | ⟨hle, heq⟩ := execMtDataNack_cases s
  · rw [if_pos hlt]
    exact heq
  · rw [if_neg (Nat.not_lt.2 hle)]
    exact heq

/-! ### Master receive (R147, R149, R150) -/

/-- Settles O24: `len > 1` is the test of the row. -/
theorem readAddressAcknowledged : Obligations.ReadAddressAcknowledged := by
  intro s
  have hrow : exec .mrSlaAck s = .next (if 1 < s.desc.len then busCmd .ack s else busCmd .nack s) := by
    simp [exec, execMrSlaAck, manyWanted]
  rw [hrow]
  refine ⟨fun hlt => ?_, fun hle => ?_⟩
  · rw [if_pos hlt]
    rfl
  · rw [if_neg (Nat.not_lt.2 hle)]
    rfl

/-- Outside the guard of R149 and R150 nothing is stored. -/
theorem storeInput_of_unguarded {s : State} (h : s.desc.dir = .write ∨ s.desc.len ≤ s.desc.idx) :
    storeInput s = s := by
  obtain ⟨hdir, hlt, -⟩ | ⟨-, heq⟩ := storeInput_cases s
  · obtain hwrite | hle := h
    · rw [hwrite] at hdir
      cases hdir
    · exact absurd hlt (Nat.not_lt.2 hle)
  · exact heq

/-- The command of MR_DATA_ACK is chosen after the store, by what remains then (R149, R203). -/
theorem exec_mrDataAck (s : State) :
    exec .mrDataAck s =
      .next (busCmd (if (storeInput s).desc.len - (storeInput s).desc.idx ≤ 1 then .nack else .ack)
        (storeInput s)) := by
  simp only [exec, execMrDataAck, lastByteNext, decide_eq_true_eq, apply_ite (busCmd · (storeInput s)),
    Nat.sub_le_iff_le_add']

theorem exec_mrDataNack (s : State) : exec .mrDataNack s = .next (deliver .ok (busCmd .stop (storeInput s))) := rfl

/-- Under the guard of R149 and R150 the store comes first, then the command. -/
theorem busCmd_storeInput_of_lt {s : State} (c : Cmd) (hdir : s.desc.dir = .read) (hlt : s.desc.idx < s.desc.len) :
    busCmd c (storeInput s) =
      { s with
        desc := { s.desc with idx := s.desc.idx + 1 }
        mem := s.mem.write (storeAddr s) s.bei.input
        bei := { s.bei with cmd := c.code }
        outs := s.outs ++ [.memWrite (storeAddr s) s.bei.input, .busCmd c] } := by
  rw [storeInput_of_lt hdir hlt]
  simp [busCmd, emit, setIdx, setDesc, hmemWrite]

/-- Settles O25: under the guard `Memory.read_write` reads the memory after `busCmd_storeInput_of_lt`, outside it
`storeInput_of_unguarded` leaves the state to the command. -/
theorem receivedByteIsStored : Obligations.ReceivedByteIsStored := by
  intro s hwf
  rw [exec_mrDataAck]
  refine ⟨fun hdir hlt => ⟨_, _, congrArg Host.Outcome.next (busCmd_storeInput_of_lt _ hdir hlt), ?_,
      Memory.read_write hwf _ _⟩,
    fun hunguarded => ⟨_, ?_, if_congr Nat.sub_le_iff_le_add' rfl rfl⟩⟩
  · rw [storeInput_of_lt hdir hlt]
    rfl
  · rw [storeInput_of_unguarded hunguarded]
    rfl

/-- Settles O26: the store of MR_DATA_ACK, with STOP and `Deliver` after it. -/
theorem finalByteIsStoredAndDelivered : Obligations.FinalByteIsStoredAndDelivered := by
  intro s hwf
  rw [exec_mrDataNack]
  refine ⟨fun hdir hlt => ⟨_, ?_, Memory.read_write hwf _ _⟩, fun hunguarded => ?_⟩
  · rw [busCmd_storeInput_of_lt _ hdir hlt]
    rfl
  · rw [storeInput_of_unguarded hunguarded]
    rfl

/-! ### The catch-all (R152) -/

/-- Every row that decodes to OTHER has the one meaning. -/
theorem exec_of_other {i : Instr} (hi : i.event = some .other) (s : State) : exec i s = .next (catchAll s) := by
  cases i
  case other00 | other68 | other78 | other88 | other98 | otherB0 | otherD0 | otherD8 | otherE0 | otherE8 | otherF0 |
    otherF8 => rfl
  all_goals cases hi

/-- Settles O28: `catchAll` is RESET and `Deliver`. -/
theorem catchAllDeliversUnknown : Obligations.CatchAllDeliversUnknown := fun _ s hi => exec_of_other hi s

/-! ### Runs with a transaction in flight (R190)

A run is cut into steps that leave the transaction in flight and one last step that delivers. -/

/-- `k` steps that leave the transaction in flight and notify nobody: they end in `t`, with this descriptor and these
stimuli still to come. -/
structure InFlight (k : Nat) (s t : State) (desc : Desc) (rest : List Stimulus) : Prop where
  steps_eq : steps k s = .next t
  cfg_eq : t.cfg = s.cfg
  busy_eq : t.busy = true
  desc_eq : t.desc = desc
  inputs_eq : t.inputs = rest
  notices_eq : notices (outputsOf k s) = []

/-- `k` steps that end the transaction in flight with the delivery of `r`. -/
def EndsIn (k : Nat) (s : State) (r : ResCode) (tries idx : Nat) : Prop :=
  ∃ t, steps k s = .next t ∧ deliveredAs r s t (notices (outputsOf k s)) ∧ t.desc.tries = tries ∧ t.desc.idx = idx

theorem steps_add {j k : Nat} {s t : State} (h : steps j s = .next t) : steps (j + k) s = steps k t := by
  induction j generalizing s with
  | zero =>
    cases h
    rw [Nat.zero_add]
  | succ j ih =>
    rw [Nat.succ_add]
    rw [steps] at h ⊢
    split at h
    · exact ih h
    · cases h
    · cases h

theorem outputsOf_add {j k : Nat} {s t : State} (h : steps j s = .next t) :
    outputsOf (j + k) s = outputsOf j s ++ outputsOf k t := by
  induction j generalizing s with
  | zero =>
    cases h
    rw [Nat.zero_add]
    rfl
  | succ j ih =>
    rw [Nat.succ_add]
    rw [steps] at h
    split at h
    · rename_i u hu
      rw [outputsOf_succ hu, outputsOf_succ hu, ih h, List.append_assoc]
    · cases h
    · cases h

section
variable {j k : Nat} {s t u : State} {desc desc' : Desc} {rest rest' : List Stimulus}

theorem InFlight.trans (h : InFlight j s t desc rest) (h' : InFlight k t u desc' rest') :
    InFlight (j + k) s u desc' rest' where
  steps_eq := (steps_add h.steps_eq).trans h'.steps_eq
  cfg_eq := h'.cfg_eq.trans h.cfg_eq
  busy_eq := h'.busy_eq
  desc_eq := h'.desc_eq
  inputs_eq := h'.inputs_eq
  notices_eq := by rw [outputsOf_add h.steps_eq, notices_append, h.notices_eq, h'.notices_eq]; rfl

/-- What is delivered at the end is what the callback of the start is told, or what the start finds stored. -/
theorem InFlight.endsIn {r : ResCode} {tries idx : Nat} (h : InFlight j s t desc rest)
    (hcb : desc.cbValid = s.desc.cbValid) (hres : desc.result = s.desc.result) (h' : EndsIn k t r tries idx) :
    EndsIn (j + k) s r tries idx := by
  obtain ⟨u, hsteps, hdelivered, htries, hidx⟩ := h'
  refine ⟨u, (steps_add h.steps_eq).trans hsteps, ?_, htries, hidx⟩
  rw [outputsOf_add h.steps_eq, notices_append, h.notices_eq]
  rwa [deliveredAs, h.desc_eq, hcb, hres] at hdelivered

end

/-! ### One step of such a run -/

/-- The notification and the end of the transaction go together: an event step that leaves a transaction in flight
notifies nobody. -/
theorem notices_of_still_busy {s t : State} {e : BusEvent} {rest : List Stimulus}
    (hx : s.inputs = .event e :: rest) (h : step s = .next t) (hbusy : t.busy = true) : notices t.outs = [] := by
  rw [step_of_event hx] at h
  obtain ⟨u, hu, rfl⟩ := onNext_eq_next h
  obtain ⟨g, hg⟩ := closeEvent_eq (decodeStatus s.cfg e.status) u
  rw [hg] at hbusy ⊢
  obtain ⟨pre, c, post, heffect⟩ := exec_event (decodeStatus_isEvent _ _) hu
  obtain ⟨-, -, -, rfl⟩ | ⟨-, hidle, -⟩ := heffect.gate
  · exact heffect.notices_eq
  · exact absurd hbusy (by simp [hidle])

/-- The gate on a transaction in flight, in a step that has notified nobody so far (R190). -/
theorem deliver_deliveredAs {v : State} (r : ResCode) (hbusy : v.busy = true) (hquiet : notices v.outs = []) :
    deliveredAs r v (deliver r v) (notices (deliver r v).outs) ∧ (deliver r v).desc.tries = v.desc.tries ∧
      (deliver r v).desc.idx = v.desc.idx := by
  obtain ⟨res, post, hdeliver, -, -, hstored, hcalled⟩ := deliver_frame r v
  rw [hdeliver]
  refine ⟨⟨rfl, by simp [hbusy], ?_⟩, rfl, rfl⟩
  rw [notices_append, hquiet, List.nil_append]
  cases hcb : v.desc.cbValid with
  | false => exact (hstored hbusy hcb).imp_right fun hpost => by rw [hpost]; rfl
  | true => exact (hcalled hbusy hcb).imp_right fun hpost => by rw [hpost, notices, notices_resp]

section
variable {s : State} {e : BusEvent} {rest : List Stimulus}

theorem StepsTo.inFlight {t : State} {desc : Desc} {mem : Memory} {bytes : List Byte}
    (h : StepsTo s t desc s.busy mem rest bytes) (hx : s.inputs = .event e :: rest) (hbusy : s.busy = true) :
    InFlight 1 s t desc rest := by
  have ht : t.busy = true := h.busy_eq.trans hbusy
  refine ⟨steps_succ h.step_eq, h.cfg_eq, ht, h.desc_eq, h.inputs_eq, ?_⟩
  rw [outputsOf_succ h.step_eq, notices_append, notices_of_still_busy hx h.step_eq ht]
  rfl

/-- A row that delivers: `v` is the state its rule hands to the gate. -/
theorem endsIn_of_deliver {v : State} {i : Instr} {r : ResCode} (hx : s.inputs = .event e :: rest)
    (hd : decodeStatus s.cfg e.status = i) (he : exec i (openEvent e (takeStimulus rest s)) = .next (deliver r v))
    (hbusy : v.busy = true) (hcb : v.desc.cbValid = s.desc.cbValid) (hres : v.desc.result = s.desc.result)
    (hquiet : notices v.outs = []) : EndsIn 1 s r v.desc.tries v.desc.idx := by
  obtain ⟨g, hg⟩ := step_event hx hd he
  obtain ⟨hdelivered, htries, hidx⟩ := deliver_deliveredAs r hbusy hquiet
  refine ⟨_, steps_succ hg, ?_, htries, hidx⟩
  rw [deliveredAs, hcb, hres] at hdelivered
  rw [outputsOf_succ hg, outputsOf, List.append_nil]
  exact hdelivered

/-- The event of the two rows of an address no-acknowledge (R145, R148). -/
def RefusesAddress (c : Config) (e : BusEvent) : Prop :=
  statusEvent c e.status = .mtSlaNack ∨ statusEvent c e.status = .mrSlaNack

/-- The row such an event decodes to runs `addressRefused`. -/
theorem RefusesAddress.exec_eq {c : Config} (h : RefusesAddress c e) (t : State) :
    exec (decodeStatus c e.status) t = .next (addressRefused t) :=
  exec_of_address_nack
    (h.imp (decodeStatus_of_event · fun _ => rfl) (decodeStatus_of_event · fun _ => rfl)) t

/-- R145, R148: while tries remain after the decrement the transaction goes on. -/
theorem inFlight_retry (hx : s.inputs = .event e :: rest) (he : RefusesAddress s.cfg e) (hbusy : s.busy = true)
    (htries : 1 < s.desc.tries) :
    ∃ t, InFlight 1 s t { s.desc with tries := s.desc.tries - 1 } rest := by
  have hexec := he.exec_eq (openEvent e (takeStimulus rest s))
  obtain ⟨-, hnext⟩ | ⟨hle, -⟩ := addressRefused_cases (openEvent e (takeStimulus rest s))
  · rw [hnext] at hexec
    obtain ⟨t, ht⟩ := stepsTo_of_event hx rfl hexec
    exact ⟨t, ht.inFlight hx hbusy⟩
  · exact absurd htries (Nat.not_lt.2 hle)

/-- R145, R148: the last try, or none. -/
theorem endsIn_notFound (hx : s.inputs = .event e :: rest) (he : RefusesAddress s.cfg e) (hbusy : s.busy = true)
    (htries : s.desc.tries ≤ 1) : EndsIn 1 s .notFound 0 s.desc.idx := by
  have hexec := he.exec_eq (openEvent e (takeStimulus rest s))
  obtain ⟨hlt, -⟩ | ⟨-, hend⟩ := addressRefused_cases (openEvent e (takeStimulus rest s))
  · exact absurd hlt (Nat.not_lt.2 htries)
  · rw [hend] at hexec
    exact endsIn_of_deliver hx rfl hexec hbusy rfl rfl rfl

/-- R142. -/
theorem inFlight_restart (hx : s.inputs = .event e :: rest) (he : statusEvent s.cfg e.status = .repStart)
    (hbusy : s.busy = true) : ∃ t, InFlight 1 s t s.desc rest := by
  obtain ⟨t, ht⟩ := stepsTo_of_event hx (decodeStatus_of_event he fun _ => rfl) rfl
  exact ⟨t, ht.inFlight hx hbusy⟩

/-- The row such an event decodes to runs `sendNext`. -/
theorem AsksForByte.exec_eq {c : Config} (h : AsksForByte c e) (t : State) :
    exec (decodeStatus c e.status) t = .next (sendNext t) := by
  obtain he | he := h
  · rw [decodeStatus_of_event he fun _ => rfl]
    rfl
  · rw [decodeStatus_of_event he fun _ => rfl]
    rfl

/-- R143, R144: no byte remains to be sent. -/
theorem endsIn_written (hx : s.inputs = .event e :: rest) (he : AsksForByte s.cfg e) (hbusy : s.busy = true)
    (hle : s.desc.len ≤ s.desc.idx) : EndsIn 1 s .ok s.desc.tries s.desc.idx := by
  have hexec := he.exec_eq (openEvent e (takeStimulus rest s))
  rw [sendNext_of_le (s := openEvent e (takeStimulus rest s)) hle] at hexec
  exact endsIn_of_deliver (v := busCmd .stop (openEvent e (takeStimulus rest s))) hx rfl hexec hbusy rfl rfl rfl

/-- R150: the final byte is received. -/
theorem endsIn_read (hx : s.inputs = .event e :: rest) (he : statusEvent s.cfg e.status = .mrDataNack)
    (hbusy : s.busy = true) (hdir : s.desc.dir = .read) (hlt : s.desc.idx < s.desc.len) :
    EndsIn 1 s .ok s.desc.tries (s.desc.idx + 1) := by
  have hexec := exec_mrDataNack (openEvent e (takeStimulus rest s))
  rw [busCmd_storeInput_of_lt (s := openEvent e (takeStimulus rest s)) .stop hdir hlt] at hexec
  exact endsIn_of_deliver hx (decodeStatus_of_event he fun _ => rfl) hexec hbusy rfl rfl rfl

end

/-! ### The retry budget (95_test_vectors.md P4) -/

/-- Each round of a no-acknowledge and its repeated start spends one try, down to the last one. -/
theorem inFlight_retries {refused : List (BusEvent × BusEvent)} {s : State} {rest : List Stimulus}
    (hx : s.inputs = retryScript refused ++ rest) (hbusy : s.busy = true)
    (htries : s.desc.tries = refused.length + 1)
    (hrounds : ∀ p ∈ refused, RefusesAddress s.cfg p.1 ∧ statusEvent s.cfg p.2.status = .repStart) :
    ∃ t, InFlight (2 * refused.length) s t { s.desc with tries := 1 } rest := by
  induction refused generalizing s with
  | nil =>
    have hdesc : s.desc = { s.desc with tries := 1 } := by
      rw [show (1 : Nat) = s.desc.tries from htries.symm]
    exact ⟨s, rfl, rfl, hbusy, hdesc, hx, rfl⟩
  | cons p refused ih =>
    obtain ⟨⟨hnack, hrestart⟩, hrounds⟩ := List.forall_mem_cons.mp hrounds
    rw [List.length_cons] at htries ⊢
    obtain ⟨t, ht⟩ := inFlight_retry hx hnack hbusy (by omega)
    obtain ⟨u, hu⟩ := inFlight_restart ht.inputs_eq (by rw [ht.cfg_eq]; exact hrestart) ht.busy_eq
    have hround := ht.trans hu
    rw [ht.desc_eq] at hround
    obtain ⟨v, hv⟩ := ih hround.inputs_eq hround.busy_eq (by rw [hround.desc_eq]; simp [htries])
      (by rw [hround.cfg_eq]; exact hrounds)
    have hall := hround.trans hv
    rw [hround.desc_eq] at hall
    rw [show 2 * (refused.length + 1) = 1 + 1 + 2 * refused.length by omega]
    exact ⟨v, hall⟩

/-- Settles O54: `inFlight_retries` comes down to the last try with the transaction in flight, and `endsIn_notFound`
spends it. -/
theorem retryBudgetEndsInNotFound : Obligations.RetryBudgetEndsInNotFound := by
  intro refused last s hbusy htries hrounds hlast hx
  obtain ⟨u, hu⟩ := inFlight_retries hx hbusy htries hrounds
  have hend : EndsIn 1 u .notFound 0 u.desc.idx :=
    endsIn_notFound hu.inputs_eq (by rw [hu.cfg_eq]; exact hlast) hu.busy_eq (by rw [hu.desc_eq])
  rw [hu.desc_eq] at hend
  refine ⟨⟨u, hu.steps_eq, hu.busy_eq, ?_, ?_, ?_, hu.notices_eq⟩, hu.endsIn rfl rfl hend⟩ <;> rw [hu.desc_eq]

/-! ### The data after the last retry -/

/-- From index `idx` on, one acknowledgement for each byte still to send and one for the last of them. -/
theorem endsIn_acknowledged {es : List BusEvent} {s : State} (hx : s.inputs = es.map .event)
    (hrows : ∀ e ∈ es, AsksForByte s.cfg e) (hbusy : s.busy = true) (hidx : s.desc.idx ≤ s.desc.len)
    (hcount : s.desc.idx + es.length = s.desc.len + 1) : EndsIn es.length s .ok s.desc.tries s.desc.len := by
  induction es generalizing s with
  | nil =>
    rw [List.length_nil] at hcount
    omega
  | cons e es ih =>
    obtain ⟨he, hes⟩ := List.forall_mem_cons.mp hrows
    rw [List.length_cons] at hcount ⊢
    obtain hlt | heq := Nat.lt_or_eq_of_le hidx
    · obtain ⟨t, hstep⟩ := stepsTo_nextByte hx he hlt
      have ht := hstep.inFlight hx hbusy
      have htail := ih ht.inputs_eq (by rw [ht.cfg_eq]; exact hes) ht.busy_eq (by rw [ht.desc_eq]; exact hlt)
        (by rw [ht.desc_eq]; show s.desc.idx + 1 + es.length = s.desc.len + 1; omega)
      rw [ht.desc_eq] at htail
      rw [Nat.add_comm]
      exact ht.endsIn rfl rfl htail
    · obtain rfl : es = [] := List.eq_nil_of_length_eq_zero (by omega)
      exact heq ▸ endsIn_written hx he hbusy heq.ge

/-- From index `idx` on, one event for each byte still wanted, the last one the no-acknowledge. -/
theorem endsIn_received {es : List BusEvent} {last : BusEvent} {s : State}
    (hx : s.inputs = es.map .event ++ [.event last]) (hacks : ∀ e ∈ es, statusEvent s.cfg e.status = .mrDataAck)
    (hnack : statusEvent s.cfg last.status = .mrDataNack) (hbusy : s.busy = true) (hdir : s.desc.dir = .read)
    (hcount : s.desc.idx + es.length + 1 = s.desc.len) : EndsIn (es.length + 1) s .ok s.desc.tries s.desc.len := by
  induction es generalizing s with
  | nil =>
    rw [← hcount]
    exact endsIn_read hx hnack hbusy hdir (by rw [← hcount]; simp)
  | cons e es ih =>
    obtain ⟨he, hes⟩ := List.forall_mem_cons.mp hacks
    rw [List.length_cons] at hcount ⊢
    obtain ⟨t, hstep⟩ := stepsTo_byteReceived hx he hdir (by omega)
    have ht := hstep.inFlight hx hbusy
    have htail := ih ht.inputs_eq (by rw [ht.cfg_eq]; exact hes) (by rw [ht.cfg_eq]; exact hnack) ht.busy_eq
      (by rw [ht.desc_eq]; exact hdir)
      (by rw [ht.desc_eq]; show s.desc.idx + 1 + es.length + 1 = s.desc.len; omega)
    rw [ht.desc_eq] at htail
    rw [Nat.add_comm]
    exact ht.endsIn rfl rfl htail

/-- Settles O58: after `inFlight_retries` a write is `endsIn_acknowledged` from the address acknowledge on, a read the
address acknowledge and then `endsIn_received`. -/
theorem lastRetryAcknowledgedEndsInOk : Obligations.LastRetryAcknowledgedEndsInOk := by
  intro refused ack data s hbusy htries hlt hrounds hdata hx
  obtain ⟨u, hu⟩ := inFlight_retries hx hbusy htries hrounds
  have hend : EndsIn (1 + data.length) u .ok u.desc.tries u.desc.len := by
    obtain ⟨hack, hcount, hacks⟩ | ⟨hdir, hack, bytes, last, rfl, hcount, hacks, hnack⟩ := hdata
    · rw [Nat.add_comm]
      refine endsIn_acknowledged (es := ack :: data) hu.inputs_eq ?_ hu.busy_eq ?_ ?_
      · rw [hu.cfg_eq]
        exact List.forall_mem_cons.mpr ⟨.inl hack, fun e he => .inr (hacks e he)⟩
      · rw [hu.desc_eq]
        exact hlt.le
      · rw [hu.desc_eq, List.length_cons, hcount]
        show s.desc.idx + (s.desc.len - s.desc.idx + 1) = s.desc.len + 1
        omega
    · obtain ⟨v, hstep⟩ := stepsTo_readAddressed hu.inputs_eq (by rw [hu.cfg_eq]; exact hack)
      have hv := hstep.inFlight hu.inputs_eq hu.busy_eq
      rw [List.length_append]
      refine hv.endsIn rfl rfl ?_
      rw [← hv.desc_eq]
      refine endsIn_received (by rw [hv.inputs_eq, List.map_append]; rfl) ?_ ?_ hv.busy_eq ?_ ?_
      · rw [hv.cfg_eq, hu.cfg_eq]
        exact hacks
      · rw [hv.cfg_eq, hu.cfg_eq]
        exact hnack
      · rw [hv.desc_eq, hu.desc_eq]
        exact hdir
      · rw [hv.desc_eq, hu.desc_eq]
        show s.desc.idx + bytes.length + 1 = s.desc.len
        omega
  rw [hu.desc_eq] at hend
  rw [Nat.add_assoc]
  exact hu.endsIn rfl rfl hend

end Sys2Proof.Machine
end

section
/-! PROOFS. Slave events (spec/42_slave_events.md): the nine slave rows as one table, what such a row does with its
handler registered and without it, and the engine after a refused session start. -/

namespace Sys2Proof.Machine

/-! ### The slave rows as a table (R170 to R178) -/

/-- What tells one slave row from another: the handler it calls, with which action, and the command that answers
the handler's answer. -/
structure SlaveRow where
  sel : HandlerSel
  action : Action
  cmd : Bool → Cmd

/-- ACK on ACCEPT, NACK on REJECT (R171, R172, R175, R176). -/
def askedCmd (accept : Bool) : Cmd := if accept then .ack else .nack

/-- The nine slave rows: four ask the handler, five only tell it. -/
def slaveRow : Instr → Option SlaveRow
  | .srSlaAck => some ⟨.rx, .sessionStart, askedCmd⟩
  | .srGcallAck => some ⟨.rx, .bcastSessionStart, askedCmd⟩
  | .srData80 | .srData90 => some ⟨.rx, .data, fun _ => .ack⟩
  | .srStop => some ⟨.rx, .sessionEnd, fun _ => .release⟩
  | .stSlaAck => some ⟨.tx, .sessionStart, askedCmd⟩
  | .stDataAck => some ⟨.tx, .data, askedCmd⟩
  | .stLastAck => some ⟨.tx, .moreRequested, fun _ => .release⟩
  | .stDataNack => some ⟨.tx, .sessionEnd, fun _ => .release⟩
  | _ => none

theorem slaveRow_isSome (i : Instr) : (slaveRow i).isSome = i.isSlave := by
  cases i <;> rfl

theorem exists_slaveRow {i : Instr} (hi : i.isSlave = true) : ∃ r, slaveRow i = some r :=
  Option.isSome_iff_exists.mp ((slaveRow_isSome i).trans hi)

/-- The answer a slave rule goes by: without a registered handler it is REJECT (R179). -/
def handlerAnswer (sel : HandlerSel) (s : State) : Bool := handlerValid sel s && s.env.reply.accept

/-- The state after the call, if there is a handler to call (R170, R179). -/
def handlerCalled (sel : HandlerSel) (a : Action) (s : State) : State :=
  if handlerValid sel s then handlerRuns (emit (.call sel (handlerRef sel s) a) s) else s

theorem callRx_eq (a : Action) (s : State) : callRx a s = (handlerAnswer .rx s, handlerCalled .rx a s) := by
  unfold callRx handlerAnswer handlerCalled handlerValid
  split <;> simp_all [handlerRef]

theorem callTx_eq (a : Action) (s : State) : callTx a s = (handlerAnswer .tx s, handlerCalled .tx a s) := by
  unfold callTx handlerAnswer handlerCalled handlerValid
  split <;> simp_all [handlerRef]

theorem answer_eq_askedCmd (accept : Bool) (s : State) : answer (accept, s) = busCmd (askedCmd accept) s := by
  cases accept <;> rfl

/-- The state a slave rule leads to: the call, then the command. -/
def SlaveRow.after (r : SlaveRow) (s : State) : State :=
  busCmd (r.cmd (handlerAnswer r.sel s)) (handlerCalled r.sel r.action s)

/-- Every slave row is the rule its entry in the table names. -/
theorem exec_slaveRow {i : Instr} {r : SlaveRow} (hr : slaveRow i = some r) (s : State) :
    exec i s = slaveRule r.sel s (r.after s) := by
  cases i <;> cases hr <;>
    simp only [exec, execSrSlaAck, execSrGcallAck, execSrData80, execSrData90, inboundData, execSrStop, execStSlaAck,
      execStDataAck, execStLastAck, execStDataNack, callRx_eq, callTx_eq, answer_eq_askedCmd, SlaveRow.after]

/-! ### What a slave row does (R170, R179, R267) -/

section
variable {i : Instr} {r : SlaveRow} {s t : State} {refusals : List ResCode}

theorem handlerCalled_of_absent {sel : HandlerSel} (a : Action) (hv : handlerValid sel s = false) :
    handlerCalled sel a s = s := by
  simp [handlerCalled, hv]

/-- A registered handler whose requests are all refused: the call, the byte it queues, the refusals. -/
theorem handlerCalled_of_refused {sel : HandlerSel} (a : Action) (hv : handlerValid sel s = true)
    (hreq : s.env.reply.requests.map (requestCheck s.busy s.cfg.bufCap) = refusals.map some) :
    handlerCalled sel a s =
      { s with
        bei := { s.bei with output := s.env.reply.out.getD s.bei.output }
        outs := s.outs ++ [.call sel (handlerRef sel s) a] ++ s.env.reply.out.toList.map .busOut ++
          refusals.map .response } := by
  rw [handlerCalled, if_pos hv, handlerRuns_refused (s := emit _ s) hreq]
  rfl

/-- The call touches the output byte and the outputs only (R180). -/
theorem handlerCalled_frame {sel : HandlerSel} (a : Action) (h : handlerStartsRequest sel s = false) :
    ∃ v pre, handlerCalled sel a s = { s with bei := { s.bei with output := v }, outs := s.outs ++ pre } ∧
      ∀ o ∈ pre, HandlerOutput s o := by
  cases hv : handlerValid sel s
  · exact ⟨s.bei.output, [], by simp [handlerCalled_of_absent a hv], by simp⟩
  · rw [handlerCalled, if_pos hv]
    exact handlerRuns_frame _ a hv h

theorem exec_slaveRow_of_absent (hr : slaveRow i = some r) (hv : handlerValid r.sel s = false) :
    exec i s =
      .next { s with
        bei := { s.bei with cmd := (r.cmd false).code }
        outs := s.outs ++ [.busCmd (r.cmd false)] } := by
  have hstart : handlerStartsRequest r.sel s = false := by simp [handlerStartsRequest, hv]
  rw [exec_slaveRow hr, slaveRule, hstart, SlaveRow.after, handlerCalled_of_absent _ hv, handlerAnswer, hv]
  rfl

theorem exec_slaveRow_of_refused (hr : slaveRow i = some r) (hv : handlerValid r.sel s = true)
    (hreq : s.env.reply.requests.map (requestCheck s.busy s.cfg.bufCap) = refusals.map some) :
    exec i s =
      .next { s with
        bei := { s.bei with
          output := s.env.reply.out.getD s.bei.output, cmd := (r.cmd s.env.reply.accept).code }
        outs := s.outs ++ [.call r.sel (handlerRef r.sel s) r.action] ++ s.env.reply.out.toList.map .busOut ++
          refusals.map .response ++ [.busCmd (r.cmd s.env.reply.accept)] } := by
  rw [exec_slaveRow hr, slaveRule, handlerStartsRequest_of_refused hreq, SlaveRow.after,
    handlerCalled_of_refused _ hv hreq, handlerAnswer, hv]
  rfl

/-- A slave row that completes: its handler started no transaction. -/
theorem slaveRow_next (hr : slaveRow i = some r) (h : exec i s = .next t) :
    handlerStartsRequest r.sel s = false ∧ t = r.after s :=
  slaveRule_next ((exec_slaveRow hr s).symm.trans h)

/-- Everything a slave row can do. -/
theorem slaveRow_frame (hr : slaveRow i = some r) (h : exec i s = .next t) :
    ∃ v pre, t =
        { s with
          bei := { s.bei with output := v, cmd := (r.cmd (handlerAnswer r.sel s)).code }
          outs := s.outs ++ pre ++ [.busCmd (r.cmd (handlerAnswer r.sel s))] } ∧
      ∀ o ∈ pre, HandlerOutput s o := by
  obtain ⟨hstart, rfl⟩ := slaveRow_next hr h
  obtain ⟨v, pre, hcalled, hpre⟩ := handlerCalled_frame r.action hstart
  exact ⟨v, pre, by rw [SlaveRow.after, hcalled]; rfl, hpre⟩

theorem slaveRow_busCmds (hr : slaveRow i = some r) (h : exec i s = .next t) :
    busCmds t.outs = busCmds s.outs ++ [r.cmd (handlerAnswer r.sel s)] := by
  obtain ⟨v, pre, rfl, hpre⟩ := slaveRow_frame hr h
  simp only [busCmds_append, busCmds_pre fun o ho => (hpre o ho).before, List.append_nil, busCmds]

end

/-- Settles O32: the call puts out what `HandlerOutput` names, and the command follows it. -/
theorem slaveEventsLeaveCoreState : Obligations.SlaveEventsLeaveCoreState := by
  intro i s t hi h
  obtain ⟨r, hr⟩ := exists_slaveRow hi
  obtain ⟨v, pre, rfl, hpre⟩ := slaveRow_frame hr h
  refine ⟨v, _, pre ++ [.busCmd (r.cmd (handlerAnswer r.sel s))], by rw [List.append_assoc], fun o ho => ?_⟩
  obtain ho | ho := List.mem_append.mp ho
  · obtain hout | hcall | hresp := hpre o ho
    · exact .inl hout
    · exact .inr (.inr (.inl hcall))
    · exact .inr (.inr (.inr hresp))
  · exact .inr (.inl ⟨_, List.mem_singleton.mp ho⟩)

/-! ### What a slave row reads (R181) -/

/-- The state as far as a slave row may read it. -/
structure SameHandlers (s s' : State) : Prop where
  valid : ∀ sel, handlerValid sel s = handlerValid sel s'
  ref : ∀ sel, handlerRef sel s = handlerRef sel s'
  reply : s.env.reply = s'.env.reply
  outs : s.outs = s'.outs
  /-- `busy` and BUF_CAP serve the check of R120 on the handler's own requests. -/
  checks : s.env.reply.requests.map (requestCheck s.busy s.cfg.bufCap) =
    s'.env.reply.requests.map (requestCheck s'.busy s'.cfg.bufCap)

section
variable {s s' : State}

theorem SameHandlers.answer_eq (h : SameHandlers s s') (sel : HandlerSel) :
    handlerAnswer sel s = handlerAnswer sel s' := by
  rw [handlerAnswer, handlerAnswer, h.valid, h.reply]

theorem SameHandlers.called_outs (h : SameHandlers s s') {sel : HandlerSel} (a : Action)
    (hstart : handlerStartsRequest sel s = false) : (handlerCalled sel a s).outs = (handlerCalled sel a s').outs := by
  cases hv : handlerValid sel s
  · rw [handlerCalled_of_absent a hv, handlerCalled_of_absent a ((h.valid sel).symm.trans hv), h.outs]
  · obtain ⟨codes, hcodes⟩ := handlerStartsRequest_false hv hstart
    rw [handlerCalled_of_refused a hv hcodes,
      handlerCalled_of_refused a ((h.valid sel).symm.trans hv) (h.checks.symm.trans hcodes)]
    simp only [h.outs, h.ref, h.reply]

end

/-- Settles O33: the command follows the answer, and the outputs before it are those of the call. -/
theorem slaveEventsReadOnlyTheHandlers : Obligations.SlaveEventsReadOnlyTheHandlers := by
  intro i s s' t t' hi hrxv htxv hrxr htxr hreply houts hreq ht ht'
  have hsame : SameHandlers s s' :=
    { valid := by rintro (_ | _) <;> assumption
      ref := by rintro (_ | _) <;> assumption
      reply := hreply
      outs := houts
      checks := by
        obtain hnone | ⟨hbusy, hcap⟩ := hreq
        · rw [← hreply, hnone]
          rfl
        · rw [hreply, hbusy, hcap] }
  obtain ⟨r, hr⟩ := exists_slaveRow hi
  obtain ⟨hstart, rfl⟩ := slaveRow_next hr ht
  obtain ⟨-, rfl⟩ := slaveRow_next hr ht'
  simp only [SlaveRow.after, busCmd_outs, busCmd_bei, hsame.answer_eq, hsame.called_outs _ hstart, and_self]

/-! ### The engine after a refused session start (R171, R216) -/

/-- The engine follows the one command of the step (R215). -/
theorem closeEvent_of_busCmds {u : State} {c : Cmd} (i : Instr) (h : busCmds u.outs = [c]) :
    closeEvent i u = { u with eng := obey u.cfg.startSticky i c u.eng } := by
  have hissued : issuedCmd u.outs = some c := by
    rw [issuedCmd_eq_getLast, h]
    rfl
  simp only [closeEvent, hissued]

/-- A session start puts the engine in the role of a slave receiver, under the command that answers it. -/
theorem obey_nack_of_sessionStart {i : Instr} (sticky : Bool) {e : Engine}
    (hi : i.event = some .srSlaAck ∨ i.event = some .srGcallAck) (he : e.role ≠ .off) :
    (obey sticky i .nack e).role = .sr ∧ (obey sticky i .nack e).last = some .nack := by
  rw [obey, if_neg he]
  obtain hi | hi := hi <;> simp [roleOfEvent, hi]

/-- Of the statuses R216 names by number only these three can meet a slave receiver. -/
theorem engineAllowsStatus_of_sr {e : Engine} {w : Byte} (hrole : e.role = .sr)
    (hcode : statusCode w ∉ ([0x00, 0x88, 0x98] : List Byte)) : engineAllowsStatus e w = false := by
  have hne : ∀ k ∈ ([0x00, 0x88, 0x98] : List Byte), (statusCode w).toNat ≠ k.toNat :=
    fun k hk heq => hcode (BitVec.eq_of_toNat_eq heq ▸ hk)
  unfold engineAllowsStatus
  split
  case h_1 h => exact absurd h (hne 0x00 (by decide))
  case h_5 h => exact absurd h (hne 0x88 (by decide))
  case h_6 h => exact absurd h (hne 0x98 (by decide))
  all_goals simp [hrole]

/-- The row of R216 for inbound data asks for ACK as the last command. -/
theorem contractAllows_srData_of_nack {t : State} {w : Byte} (hrole : t.eng.role = .sr)
    (hlast : t.eng.last = some .nack) (hw : statusEvent t.cfg w = .srData)
    (hcode : statusCode w ∉ ([0x00, 0x88, 0x98] : List Byte)) : contractAllows t w = false := by
  have hevent : engineAllows t.eng t.srt t.desc.dir (decodeStatus t.cfg w) = false := by
    simp [engineAllows, decodeStatus_event, hw, hlast]
  rw [contractAllows, hevent, engineAllowsStatus_of_sr hrole hcode, Bool.or_self]

/-- Under the table of R92 none of the numbers R216 names is inbound data (D6). -/
theorem statusCode_not_mem_of_srData {c : Config} {w : Byte} (hc : c.statusDecode = statusTable)
    (hw : statusEvent c w = .srData) : statusCode w ∉ ([0x00, 0x88, 0x98] : List Byte) := by
  intro hmem
  have hrow : ∀ k ∈ ([0x00, 0x88, 0x98] : List Byte), (k, Event.other) ∈ statusTable := by decide
  have hother : statusEvent c w = .other := statusEvent_of_mem hc (hrow _ hmem) rfl
  exact absurd (hw.symm.trans hother) (by decide)

/-- A session start calls the receive handler and follows its answer. -/
theorem slaveRow_of_sessionStart {i : Instr} (hi : i.event = some .srSlaAck ∨ i.event = some .srGcallAck) :
    ∃ a, slaveRow i = some ⟨.rx, a, askedCmd⟩ := by
  cases i <;> simp [Instr.event, slaveRow] at hi ⊢

/-- Settles O34: the rule answers NACK, the engine obeys it as a slave receiver, and there R216 asks for ACK. -/
theorem rejectedSessionGetsNoData : Obligations.RejectedSessionGetsNoData := by
  intro s t e rest hx hevent hrole hreject hstep
  obtain ⟨u, hexec, rfl⟩ := onNext_eq_next ((step_of_event hx).symm.trans hstep)
  have hi : (decodeStatus s.cfg e.status).event = some .srSlaAck ∨
      (decodeStatus s.cfg e.status).event = some .srGcallAck := by
    simpa only [decodeStatus_event, Option.some.injEq] using hevent
  obtain ⟨a, hrow⟩ := slaveRow_of_sessionStart hi
  have hanswer : handlerAnswer .rx (openEvent e (takeStimulus rest s)) = false := Bool.and_eq_false_iff.mpr hreject
  have hcmds : busCmds u.outs = [.nack] := by
    rw [slaveRow_busCmds hrow hexec, hanswer]
    rfl
  obtain ⟨v, pre, hu, -⟩ := slaveRow_frame hrow hexec
  have hcfg : u.cfg = s.cfg := by rw [hu]; rfl
  have heng : u.eng = s.eng := by rw [hu]; rfl
  obtain ⟨hsr, hlast⟩ := obey_nack_of_sessionStart u.cfg.startSticky hi (heng ▸ hrole)
  have hrefuses : ∀ w, statusEvent s.cfg w = .srData → statusCode w ∉ ([0x00, 0x88, 0x98] : List Byte) →
      contractAllows (closeEvent (decodeStatus s.cfg e.status) u) w = false := by
    rw [closeEvent_of_busCmds _ hcmds]
    exact fun w hw hcode => contractAllows_srData_of_nack hsr hlast (hcfg ▸ hw) hcode
  refine ⟨?_, hrefuses, fun htable w hw => hrefuses w hw (statusCode_not_mem_of_srData htable hw)⟩
  rw [closeEvent_of_busCmds _ hcmds]
  exact hcmds

/-! ### The rows one by one (R171 to R179) -/

/-- Settles O29: the four rows ask their handler, and `exec_slaveRow_of_refused` is the next state of each. -/
theorem askedHandlerDecidesTheCommand : Obligations.AskedHandlerDecidesTheCommand := by
  intro row hrow s refusals hv hreq
  have htable : slaveRow row.1 = some ⟨row.2.1, row.2.2, askedCmd⟩ := by
    fin_cases hrow <;> rfl
  exact ⟨_, exec_slaveRow_of_refused htable hv hreq, rfl⟩

/-- Settles O30: the five rows give their command whatever the answer. -/
theorem toldHandlerIsIgnored : Obligations.ToldHandlerIsIgnored := by
  intro row hrow s refusals hv hreq
  have htable : slaveRow row.1 = some ⟨row.2.1, row.2.2.1, fun _ => row.2.2.2⟩ := by
    fin_cases hrow <;> rfl
  exact exec_slaveRow_of_refused htable hv hreq

/-- Settles O31: each row's command on REJECT is the one listed. -/
theorem absentHandlerRejects : Obligations.AbsentHandlerRejects := by
  intro row hrow s hv
  obtain ⟨r, htable, hsel, hcmd⟩ : ∃ r, slaveRow row.1 = some r ∧ r.sel = row.2.1 ∧ r.cmd false = row.2.2 := by
    fin_cases hrow <;> exact ⟨_, rfl, rfl, rfl⟩
  rw [← hsel] at hv
  rw [exec_slaveRow_of_absent htable hv, hcmd]

end Sys2Proof.Machine
end

section
/-! PROOFS. The gate and the commands (spec/43_gate_and_commands.md): what `Deliver` does, one notification or one
stored result per transaction, one command per step and where START is issued. -/

namespace Sys2Proof.Machine

/-! ### The gate (R190, R191) -/

/-- The gate is shut with no transaction in flight (R270). -/
theorem deliver_of_idle {s : State} (hidle : s.busy = false) (r : ResCode) : deliver r s = s := by
  simp [deliver, hidle]

/-- With a callback `Deliver` clears it and notifies, and the callback's requests find `busy` still 1 (R128). -/
theorem deliver_of_callback {s : State} (hbusy : s.busy = true) (hcb : s.desc.cbValid = true) (r : ResCode) :
    deliver r s =
      setBusy false (runCallback (notify r s.desc.cbRef (setCbValid false s))) := by
  simp [deliver, hbusy, hcb]

/-- Settles O14: the three branches of `Deliver`; what the callback's own requests leave is `runCallback_busy`. -/
theorem deliverThroughTheGate : Obligations.DeliverThroughTheGate := by
  refine fun s r => ⟨fun hidle => deliver_of_idle hidle r, fun hbusy hcb => ?_, deliver_of_no_callback (r := r)⟩
  rw [deliver_of_callback hbusy hcb, runCallback_busy (s := notify r s.desc.cbRef (setCbValid false s)) hbusy]
  rfl

/-- The gate as the host sees it: it did not act, or it ended the transaction in flight by one notification or by one
stored result. -/
theorem HasEffect.delivery_cases {i : Instr} {s t : State} (h : HasEffect i s t) :
    (t.busy = s.busy ∧ t.desc.cbValid = s.desc.cbValid ∧ t.desc.result = s.desc.result ∧
        notices t.outs = notices s.outs) ∨
      (s.busy = true ∧ t.busy = false ∧ t.desc.cbValid = false ∧ ∃ r : ResCode, r.deliverable = true ∧
        ((s.desc.cbValid = true ∧ t.desc.result = s.desc.result ∧ notices t.outs = notices s.outs ++ [r]) ∨
          (s.desc.cbValid = false ∧ t.desc.result = r ∧ notices t.outs = notices s.outs))) := by
  obtain ⟨pre, c, post, e⟩ := h
  have hnotices := e.notices_eq
  obtain ⟨hbusy, hcb, hres, rfl⟩ | ⟨hs, ht, -, -, hcb, r, hr, ⟨hmode, hres, rfl⟩ | ⟨hmode, hres, rfl⟩⟩ := e.gate
  · exact .inl ⟨hbusy, hcb, hres, by simpa [notices] using hnotices⟩
  · exact .inr ⟨hs, ht, hcb, r, hr, .inl ⟨hmode, hres, by rwa [notices, notices_resp] at hnotices⟩⟩
  · exact .inr ⟨hs, ht, hcb, r, hr, .inr ⟨hmode, hres, by simpa [notices] using hnotices⟩⟩

/-- Settles O15: `busy` fell exactly if the gate acted, and `cb_valid` decides between its two ways to deliver. -/
theorem deliveryIsNotifyOrStore : Obligations.DeliveryIsNotifyOrStore := by
  intro i s t hi hbusy h
  obtain ⟨hkept, hquiet⟩ | ⟨-, hended, hcb, r, hr, ⟨hmode, hres, hnotices⟩ | ⟨hmode, hres, hnotices⟩⟩ :=
    (exec_event hi h).delivery_cases
  · have hstill : t.busy = true := hkept.trans hbusy
    exact ⟨fun hend => by simp [hstill] at hend, fun hend => by simp [hstill] at hend, fun _ => hquiet⟩
  · exact ⟨fun _ _ => ⟨hcb, hres, r, hr, hnotices⟩, fun _ hsync => by simp [hmode] at hsync,
      fun hstill => by simp [hended] at hstill⟩
  · exact ⟨fun _ hasync => by simp [hmode] at hasync, fun _ _ => ⟨hcb, by rw [hres]; exact hr, hnotices⟩,
      fun hstill => by simp [hended] at hstill⟩

/-- Settles O16: the gate acts on a transaction in flight only. -/
theorem idleEventsDeliverNothing : Obligations.IdleEventsDeliverNothing := by
  intro i s t hi hidle h
  obtain ⟨hkept, hquiet⟩ | ⟨hbusy, -⟩ := (exec_event hi h).delivery_cases
  · exact ⟨hkept.trans hidle, hquiet⟩
  · simp [hidle] at hbusy

/-! ### One command per step (R193, R201) -/

/-- The command of a host request: START if it is accepted, else none and nothing but outputs changes (R124, R263). -/
theorem exec_request_command {i : Instr} {s t : State} (hi : i.isEvent = false) (h : exec i s = .next t) :
    ∃ new, t.outs = s.outs ++ new ∧
      ((s.busy = false ∧ t.busy = true ∧ t.bei.cmd = Cmd.start.code ∧ busCmds new = [.start] ∧
          Output.response .accepted ∈ new) ∨
        (busCmds new = [] ∧ t = { s with outs := s.outs ++ new })) := by
  obtain ⟨code, -, rfl⟩ | ⟨hidle, _, _, _, _, _, _, _, new, -, -, -, -, -, -, hcmds, -, hacc, rfl⟩ :=
    exec_request hi h
  · exact ⟨[.response code], rfl, .inr ⟨rfl, rfl⟩⟩
  · exact ⟨new, rfl, .inl ⟨hidle, rfl, rfl, hcmds, hacc⟩⟩

/-- A CONFIG step that completes had a record the decoder takes. -/
theorem step_config_next {s t : State} {r : CfgRec} {rest : List Stimulus} (hx : s.inputs = .config r :: rest)
    (h : step s = .next t) : t = configStep r (takeStimulus rest s) := by
  cases hr : r.wf s.cfg with
  | true =>
    rw [step_config hx hr] at h
    cases h
    rfl
  | false =>
    have hd : r.decode s.cfg = .error .referenceTooWide := by simp [CfgRec.decode, hr]
    rw [step_config_error hx hd] at h
    cases h

theorem step_reset {s : State} {d : Desc} {q : SlaveTable} {rest : List Stimulus}
    (hx : s.inputs = .reset d q :: rest) : step s = .next (resetStep d q (takeStimulus rest s)) := by
  simp only [step, hx, runStimulus]

/-- Settles O18: an event's command stands between the two parts of its effect, a request's is that of its accept
step, and the three other steps put out a value read or nothing. -/
theorem oneCommandPerStep : Obligations.OneCommandPerStep := by
  refine ⟨fun i s t hi h => ?_, fun i s t hi h => ?_, fun s t x rest hx hkind h => ?_⟩
  · obtain ⟨pre, c, post, e⟩ := exec_event hi h
    exact ⟨pre, c, post, e.outs, e.cmd, e.pre_ok, e.post_ok⟩
  · obtain ⟨new, houts, ⟨-, -, hcode, hcmds, hacc⟩ | hrefused⟩ := exec_request_command hi h
    · exact ⟨new, houts, .inl ⟨hcmds, hacc, hcode⟩⟩
    · exact ⟨new, houts, .inr hrefused⟩
  · obtain ⟨r, rfl⟩ | ⟨d, q, rfl⟩ | ⟨what, rfl⟩ := hkind
    · rw [step_config_next hx h]
      exact ⟨rfl, rfl⟩
    · rw [step_reset hx] at h
      cases h
      exact ⟨rfl, rfl⟩
    · rw [step_hostRead hx] at h
      cases h
      cases what <;> exact ⟨rfl, rfl⟩

/-- Settles O41: an event issues the one command of its effect, and a request issues START exactly if `busy` rises. -/
theorem startCommandInFourPlaces : Obligations.StartCommandInFourPlaces := by
  intro i s t new h hnew
  cases hi : i.isEvent with
  | true =>
    obtain ⟨pre, c, post, e⟩ := exec_event hi h
    have hcmds : busCmds new = [c] := by simpa [hnew] using e.cmds
    rw [hcmds, List.mem_singleton, eq_comm, e.start]
    simp
  | false =>
    have hplaces : ¬(((i = .mtSlaNack ∨ i = .mrSlaNack) ∧ 1 < s.desc.tries) ∨ i = .arbLost) := by
      rintro (⟨rfl | rfl, -⟩ | rfl) <;> cases hi
    obtain ⟨new', hnew', hcases⟩ := exec_request_command hi h
    obtain rfl : new = new' := List.append_cancel_left (hnew.symm.trans hnew')
    obtain ⟨hidle, hbusy, -, hcmds, -⟩ | ⟨hcmds, rfl⟩ := hcases
    · simp [hcmds, hidle, hbusy]
    · simp [hcmds, hplaces]

/-! ### One notification per transaction over a run (R191, R232)

A transaction in flight is a credit of one notification: a step without a request spends it or keeps it. -/

/-- A notification costs the transaction in flight. -/
theorem HasEffect.notices_length_le {i : Instr} {s t : State} (h : HasEffect i s t) :
    (notices t.outs).length + t.busy.toNat ≤ (notices s.outs).length + s.busy.toNat := by
  obtain ⟨hbusy, -, -, hnotices⟩ | ⟨hs, ht, -, r, -, ⟨-, -, hnotices⟩ | ⟨-, -, hnotices⟩⟩ := h.delivery_cases
  · rw [hbusy, hnotices]
  · simp [hs, ht, hnotices]
  · simp [hs, ht, hnotices]

/-- What interrupts a spinning foreground is taken out of the stimuli and the others stay. -/
theorem takeInterrupt_perm {l others : List Stimulus} {y : Stimulus} (h : takeInterrupt l = some (y, others)) :
    (y :: others).Perm l := by
  induction l generalizing others with
  | nil => cases h
  | cons x l ih =>
    rw [takeInterrupt] at h
    split at h
    · cases h
      exact .refl _
    · split at h
      · rename_i z others' hz
        cases h
        exact (List.Perm.swap x y others').trans ((ih hz).cons x)
      · cases h

/-- A turn of the `wait` loop brings no stimulus but the loop itself. -/
theorem mem_waitStep_inputs {s : State} {x : Stimulus} (h : x ∈ (waitStep s).inputs) : x = .wait ∨ x ∈ s.inputs := by
  unfold waitStep at h
  split at h
  · split at h
    · rename_i y others hy
      rw [← (takeInterrupt_perm hy).mem_iff]
      simp only [List.mem_cons] at h ⊢
      tauto
    · exact List.mem_cons.mp h
  · exact .inr h

/-- A turn of the `wait` loop puts out the flag read and leaves it. -/
theorem waitStep_outs_busy (s : State) :
    (waitStep s).outs = s.outs ++ [.readBusy s.busy] ∧ (waitStep s).busy = s.busy := by
  unfold waitStep
  split
  · split <;> exact ⟨rfl, rfl⟩
  · exact ⟨rfl, rfl⟩

/-- A step that is no request leaves no request among the stimuli, and pays for a notification with the transaction in
flight. -/
theorem step_without_request {s t : State} (hno : ∀ x ∈ s.inputs, x.isRequest = false) (h : step s = .next t) :
    (∀ x ∈ t.inputs, x.isRequest = false) ∧ (notices t.outs).length + t.busy.toNat ≤ s.busy.toNat := by
  obtain ⟨x, rest, hx, hcases⟩ := step_cases h
  rw [hx] at hno
  obtain ⟨hhead, hrest⟩ := List.forall_mem_cons.mp hno
  rcases hcases with ⟨e, u, -, hu, rfl⟩ | ⟨r, rfl, -⟩ | ⟨r, u, rfl, -⟩ | ⟨r, -, -, rfl⟩ | ⟨d, q, -, rfl⟩ |
    ⟨w, -, rfl⟩ | ⟨-, rfl⟩ | ⟨a, v, -, rfl⟩ | ⟨-, rfl⟩
  · have heffect := exec_event (decodeStatus_isEvent _ _) hu
    obtain ⟨-, -, -, -, hinputs, -⟩ := heffect.environment
    obtain ⟨g, hg⟩ := closeEvent_eq (decodeStatus s.cfg e.status) u
    rw [hg]
    exact ⟨hinputs ▸ hrest, by simpa [openEvent, notices] using heffect.notices_length_le⟩
  · cases hhead
  · cases hhead
  · exact ⟨hrest, by simp [configStep, notices]⟩
  · exact ⟨hrest, Nat.zero_le _⟩
  · cases w <;> exact ⟨hrest, by simp [readStep, notices]⟩
  · obtain ⟨houts, hbusy⟩ := waitStep_outs_busy (takeStimulus rest s)
    refine ⟨fun y hy => ?_, by simp [houts, hbusy, notices]⟩
    obtain rfl | hy := mem_waitStep_inputs hy
    · rfl
    · exact hrest y hy
  · exact ⟨hrest, by simp [hostWriteStep, notices]⟩
  · exact ⟨hrest, by simp [engineInitStep, notices]⟩

/-- In a run without a further request the notifications are bounded by the transaction in flight at its start. -/
theorem notices_outputsOf_length_le {k : Nat} {s : State} (hno : ∀ x ∈ s.inputs, x.isRequest = false) :
    (notices (outputsOf k s)).length ≤ s.busy.toNat := by
  induction k generalizing s with
  | zero => exact Nat.zero_le _
  | succ k ih =>
    rw [outputsOf]
    split
    · rename_i t ht
      obtain ⟨hno', hstep⟩ := step_without_request hno ht
      have hrun := ih hno'
      rw [notices_append, List.length_append]
      omega
    · exact Nat.zero_le _
    · exact Nat.zero_le _

/-- Settles O56: the bound by the transaction in flight is at most one, and zero with nothing in flight. -/
theorem oneNotificationPerTransaction : Obligations.OneNotificationPerTransaction := by
  intro k s hno
  have hbound : (notices (outputsOf k s)).length ≤ s.busy.toNat := notices_outputsOf_length_le hno
  refine ⟨hbound.trans (Bool.toNat_le _), fun hidle => List.length_eq_zero_iff.mp ?_⟩
  rw [hidle] at hbound
  exact Nat.le_zero.mp hbound

end Sys2Proof.Machine
end

section
/-! PROOFS. Bus conditions (spec/44_bus_conditions.md): what each step does to the mark of the environment contract, and
how the engine's own state follows a slave event and an accepted request. -/

namespace Sys2Proof.Machine

/-! ### The mark of the contract (R216, U3, U7) -/

theorem exec_leftContract {i : Instr} {s t : State} (h : exec i s = .next t) : t.leftContract = s.leftContract := by
  obtain ⟨-, -, -, -, -, -, -, -, hmark⟩ := meaningsLeaveTheEnvironment i s t h
  exact hmark

/-- An event step sets the mark exactly if R216 or the pairs of U3 rule the event out: both look at the state before the
step. -/
theorem step_event_leftContract {s t : State} {e : BusEvent} {rest : List Stimulus}
    (hx : s.inputs = .event e :: rest) (h : step s = .next t) :
    t.leftContract =
      (s.leftContract || !(contractAllows s e.status && eventFits (decodeStatus s.cfg e.status) s)) := by
  obtain ⟨u, hu, rfl⟩ := onNext_eq_next ((step_of_event hx).symm.trans h)
  obtain ⟨g, hg⟩ := closeEvent_eq (decodeStatus s.cfg e.status) u
  rw [hg]
  exact exec_leftContract hu

theorem runRequest_leftContract {r : RawReq} {s t : State} (h : runRequest r s = .next t) :
    t.leftContract = s.leftContract := by
  obtain ⟨u, -, hu, rfl⟩ := runRequest_next h
  obtain ⟨g, hg⟩ := closeRequest_eq u
  rw [hg]
  exact exec_leftContract (s := openRequest s) (t := u) hu

theorem markUnless_keeps_mark {ok : Bool} {s : State} (hs : s.leftContract = true) :
    (markUnless ok s).leftContract = true := by
  rw [markUnless_leftContract, hs, Bool.true_or]

/-- A step unmarked at its end met its condition. -/
theorem of_markUnless_unmarked {ok : Bool} {s : State} (h : (markUnless ok s).leftContract = false) : ok = true := by
  rw [markUnless_leftContract] at h
  simpa using (Bool.or_eq_false_iff.mp h).2

/-- Nothing clears the mark, a reset included (log 15). -/
theorem step_keeps_mark {s t : State} (h : step s = .next t) (hs : s.leftContract = true) : t.leftContract = true := by
  obtain ⟨x, rest, hx, hcases⟩ := step_cases h
  rcases hcases with ⟨e, u, rfl, -, -⟩ | ⟨r, -, hr⟩ | ⟨r, u, -, hu, rfl⟩ | ⟨r, -, -, rfl⟩ | ⟨d, q, -, rfl⟩ |
    ⟨w, -, rfl⟩ | ⟨-, rfl⟩ | ⟨a, v, -, rfl⟩ | ⟨-, rfl⟩
  · rw [step_event_leftContract hx h, hs, Bool.true_or]
  · exact (runRequest_leftContract hr).trans hs
  · obtain ⟨xs, hxs⟩ := blockCaller_eq u
    rw [hxs]
    exact (runRequest_leftContract hu).trans hs
  · exact markUnless_keeps_mark (s := takeStimulus rest s) hs
  · exact hs
  · obtain ⟨o, ho⟩ := readStep_eq w (takeStimulus rest s)
    rw [ho]
    exact hs
  · obtain ⟨xs, os, hw⟩ := waitStep_eq (takeStimulus rest s)
    rw [hw]
    exact hs
  · exact markUnless_keeps_mark (s := takeStimulus rest s) hs
  · exact markUnless_keeps_mark (s := takeStimulus rest s) hs

theorem step_engineInit {s : State} {rest : List Stimulus} (hx : s.inputs = .engineInit :: rest) :
    step s = .next (engineInitStep (takeStimulus rest s)) := by
  simp only [step, hx, runStimulus]

/-- Settles O49: `step_keeps_mark`, and the condition each of the three steps marks unless, read back from its end. -/
theorem markRecordsTheContract : Obligations.MarkRecordsTheContract := by
  intro s t h
  refine ⟨step_keeps_mark h, fun e rest hx ht => ?_, fun rest hx ht => ?_⟩
  · rw [step_event_leftContract hx h] at ht
    simpa using (Bool.or_eq_false_iff.mp ht).2
  · obtain ⟨r, hx⟩ | hx := hx
    · rw [step_config_next hx h] at ht
      exact of_markUnless_unmarked (s := takeStimulus rest s) ht
    · rw [step_engineInit hx] at h
      cases h
      exact of_markUnless_unmarked (s := takeStimulus rest s) ht

/-! ### A pending start across a slave event (R218) -/

/-- A slave row answers with ACK or NACK or releases the bus (R171 to R178). -/
theorem slaveRow_cmd {i : Instr} {r : SlaveRow} (hr : slaveRow i = some r) (accept : Bool) :
    r.cmd accept ∈ [Cmd.ack, .nack, .release] := by
  cases i <;> cases hr <;> cases accept <;> decide

/-- An engine set up owes after such a command what the event left of the start request. -/
theorem obey_pendingStart {c : Cmd} (hc : c ∈ [Cmd.ack, .nack, .release]) (sticky : Bool) (i : Instr) {e : Engine}
    (he : e.role ≠ .off) : (obey sticky i c e).pendingStart = keepsPending sticky i e.pendingStart := by
  rw [obey, if_neg he]
  fin_cases hc <;> rfl

theorem keepsPending_of_isSlave {i : Instr} (hi : i.isSlave = true) (sticky pending : Bool) :
    keepsPending sticky i pending = (pending && sticky) := by
  unfold keepsPending
  split
  case h_1 hevent => simp [Instr.isSlave, hevent, Event.slaveClass] at hi
  case h_2 hevent => simp [Instr.isSlave, hevent, Event.slaveClass] at hi
  case h_3 e _ _ hevent =>
    have hclass : e.slaveClass = true := by simpa [Instr.isSlave, hevent] using hi
    rw [hclass, Bool.not_true, Bool.or_false]
  case h_4 hevent => simp [Instr.isSlave, hevent] at hi

/-- Settles O50: a slave row's command is none of the two that overrule the pending start, so `keepsPending` decides. -/
theorem pendingStartAcrossSession : Obligations.PendingStartAcrossSession := by
  intro s t e rest hx hslave hrole h
  obtain ⟨u, hu, rfl⟩ := onNext_eq_next ((step_of_event hx).symm.trans h)
  obtain ⟨r, hr⟩ := exists_slaveRow hslave
  obtain ⟨hcfg, -, heng, -⟩ := meaningsLeaveTheEnvironment _ _ _ hu
  have hcmds := slaveRow_busCmds hr hu
  rw [closeEvent_of_busCmds _ hcmds]
  show (obey u.cfg.startSticky _ _ u.eng).pendingStart = _
  rw [hcfg, heng]
  exact (obey_pendingStart (slaveRow_cmd hr _) _ _ hrole).trans (keepsPending_of_isSlave hslave _ _)

/-! ### A start posted by an accepted request (R216, U3) -/

/-- The end of a request step that has issued a command: the engine got a START. -/
theorem closeRequest_of_busCmds {u : State} {c : Cmd} (h : busCmds u.outs = [c]) :
    closeRequest u = { u with eng := postStart u.eng } := by
  have hissued : issuedCmd u.outs = some c := by
    rw [issuedCmd_eq_getLast, h]
    rfl
  simp only [closeRequest, hissued]

/-- A request step that answers ACCEPTED has posted START. -/
theorem step_request_accepted_eng {s t : State} {r : RawReq} {rest : List Stimulus}
    (hx : s.inputs = .request r :: rest) (h : step s = .next t) (hacc : Output.response .accepted ∈ t.outs) :
    t.eng = postStart s.eng := by
  have hrun : runRequest r (takeStimulus rest s) = .next t := by simpa only [step, hx, runStimulus] using h
  obtain ⟨u, -, hu, rfl⟩ := runRequest_next hrun
  obtain ⟨code, hcode, rfl⟩ | ⟨-, _, _, _, _, _, _, _, new, -, -, -, -, -, -, hcmds, -, -, rfl⟩ :=
    exec_request (toInstr_isEvent r) hu
  · have hresp : Output.response .accepted ∈ [Output.response code] := hacc
    obtain rfl | rfl := hcode <;> simp at hresp
  · rw [closeRequest_of_busCmds (c := .start) hcmds]
    rfl

/-- The engine is in no transfer as a master. -/
def EngineRole.NoTransfer (r : EngineRole) : Prop := r ≠ .addrQueued ∧ r ≠ .mt ∧ r ≠ .mr

/-- A START ends, for the contract, the transfer it is posted over. -/
theorem postStart_noTransfer (e : Engine) : (postStart e).role.NoTransfer := by
  unfold postStart
  split_ifs with hoff hsession
  · simp [EngineRole.NoTransfer, hoff]
  · simp only [Bool.or_eq_true, decide_eq_true_eq] at hsession
    obtain h | h := hsession <;> simp [EngineRole.NoTransfer, h]
  · simp [EngineRole.NoTransfer]

/-- In every row of R216 an event of a master transfer asks for one of the roles of such a transfer. -/
theorem engineAllows_of_noTransfer {e : Engine} (he : e.role.NoTransfer) (srt : SlaveTable) (dir : Dir) {i : Instr}
    (hi : i ∈ [Instr.mtSlaAck, .mtSlaNack, .mtDataAck, .mtDataNack, .arbLost, .mrSlaAck, .mrSlaNack, .mrDataAck,
      .mrDataNack]) : engineAllows e srt dir i = false := by
  obtain ⟨hqueued, hmt, hmr⟩ := he
  fin_cases hi <;> simp [engineAllows, Instr.event, hqueued, hmt, hmr]

/-- Outside a slave session the START is the next thing the engine may report. -/
theorem engineAllows_start_of_postStart {e : Engine} (hoff : e.role ≠ .off) (hsr : e.role ≠ .sr) (hst : e.role ≠ .st)
    (srt : SlaveTable) (dir : Dir) : engineAllows (postStart e) srt dir .start = true := by
  simp [engineAllows, Instr.event, postStart, hoff, hsr, hst]

/-- Settles O60: the engine ends with START posted, and `postStart` leaves it in no transfer. -/
theorem postedStartClosesTheTransfer : Obligations.PostedStartClosesTheTransfer := by
  intro s t r rest hx h hacc
  rw [step_request_accepted_eng hx h hacc]
  exact ⟨fun i hi => engineAllows_of_noTransfer (postStart_noTransfer s.eng) _ _ hi,
    fun hoff hsr hst => engineAllows_start_of_postStart hoff hsr hst _ _⟩

end Sys2Proof.Machine
end

section
/-! PROOFS. Reset and hazards (spec/70_reset_and_hazards.md): the draw of a reset step, the two ways to be left
without a stimulus, arbitration lost any number of times, and the requests of a slave handler. -/

namespace Sys2Proof.Machine

/-! ### The draw of a reset step (R39, R260, log 5) -/

theorem fitBuffer_of_length {c : Config} {l : List Byte} (h : l.length = c.bufCap) : fitBuffer c l = l := by
  simp [fitBuffer, ← h]

/-- A descriptor within the widths of R20 and the bound of R38(c) is drawn as it is. -/
theorem fitDesc_of_fits {c : Config} {d : Desc} (hbuf : d.buf.length = c.bufCap) (hdst : d.dst < 2 ^ c.addrW)
    (hlen : d.len < 2 ^ lenWidth c) (hidx : d.idx < 2 ^ lenWidth c) (htries : d.tries ≤ c.maxTries)
    (href : d.cbRef < 2 ^ c.cbW) : fitDesc c d = d := by
  simp only [fitDesc, fitBuffer_of_length hbuf, Nat.mod_eq_of_lt hdst, Nat.mod_eq_of_lt hlen, Nat.mod_eq_of_lt hidx,
    Nat.mod_eq_of_lt (Nat.lt_succ_of_le htries), Nat.mod_eq_of_lt href]

theorem fitTable_of_fits {c : Config} {q : SlaveTable} (hrx : q.rxRef < 2 ^ c.cbW) (htx : q.txRef < 2 ^ c.cbW) :
    fitTable c q = q := by
  simp only [fitTable, Nat.mod_eq_of_lt hrx, Nat.mod_eq_of_lt htx]

/-- Settles O42: `resetStep` on the state whose outputs have been cleared, and a draw that fits is not cut. -/
theorem resetStepClearsTheFlags : Obligations.ResetStepClearsTheFlags := by
  intro s d q rest hx
  refine ⟨_, step_reset hx, rfl, rfl, rfl, rfl, rfl, rfl, rfl, rfl, rfl, rfl, rfl, rfl, ?_⟩
  intro hbuf hdst hlen hidx htries href hrx htx
  constructor
  · simp only [resetStep, takeStimulus_cfg, fitDesc_of_fits hbuf hdst hlen hidx htries href]
  · simp only [resetStep, takeStimulus_cfg, fitTable_of_fits hrx htx]

/-! ### No stimulus left (R269, log 14) -/

theorem step_of_no_stimulus {s : State} (hx : s.inputs = []) : step s = quiet s := by
  simp only [step, hx]

/-- Settles O47: a step without a stimulus is `quiet`, whose fault goes by `busy`. -/
theorem silentBusLocksUp : Obligations.SilentBusLocksUp := by
  intro s hx
  rw [step_of_no_stimulus hx]
  exact ⟨fun hbusy => by simp [quiet, hbusy], fun hidle => by simp [quiet, hidle]⟩

/-! ### Arbitration lost any number of times (R268)

`InFlight` asks for a transaction in flight; the rounds of START and ARB_LOST leave `busy` and the descriptor alone
whatever they are. -/

/-- `k` steps that leave `busy` and the descriptor as they were and notify nobody: they end in `t`, with these stimuli
still to come. -/
structure Undisturbed (k : Nat) (s t : State) (rest : List Stimulus) : Prop where
  steps_eq : steps k s = .next t
  cfg_eq : t.cfg = s.cfg
  busy_eq : t.busy = s.busy
  desc_eq : t.desc = s.desc
  inputs_eq : t.inputs = rest
  notices_eq : notices (outputsOf k s) = []

section
variable {s t u : State} {rest rest' : List Stimulus}

theorem Undisturbed.trans {j k : Nat} (h : Undisturbed j s t rest) (h' : Undisturbed k t u rest') :
    Undisturbed (j + k) s u rest' where
  steps_eq := (steps_add h.steps_eq).trans h'.steps_eq
  cfg_eq := h'.cfg_eq.trans h.cfg_eq
  busy_eq := h'.busy_eq.trans h.busy_eq
  desc_eq := h'.desc_eq.trans h.desc_eq
  inputs_eq := h'.inputs_eq
  notices_eq := by rw [outputsOf_add h.steps_eq, notices_append, h.notices_eq, h'.notices_eq]; rfl

/-- The step of an event whose rule keeps the two fields and notifies nobody. -/
theorem undisturbed_of_event {e : BusEvent} {i : Instr} (hx : s.inputs = .event e :: rest)
    (hd : decodeStatus s.cfg e.status = i) (he : exec i (openEvent e (takeStimulus rest s)) = .next u)
    (hbusy : u.busy = s.busy) (hdesc : u.desc = s.desc) (hquiet : notices u.outs = []) :
    ∃ t, Undisturbed 1 s t rest := by
  obtain ⟨g, hg⟩ := step_event hx hd he
  obtain ⟨hcfg, -, -, -, hinputs, -⟩ := meaningsLeaveTheEnvironment i _ u he
  refine ⟨_, steps_succ hg, hcfg, hbusy, hdesc, hinputs, ?_⟩
  rw [outputsOf_succ hg, outputsOf, List.append_nil]
  exact hquiet

/-- START puts out the address byte and ACK (R141), ARB_LOST puts out START (R151). -/
theorem undisturbed_arbitration_round {start lost : Byte} (hstart : statusEvent s.cfg start = .start)
    (hlost : statusEvent s.cfg lost = .arbLost)
    (hx : s.inputs = plainEvent start :: plainEvent lost :: rest) : ∃ t, Undisturbed 2 s t rest := by
  obtain ⟨t, ht⟩ := undisturbed_of_event hx (decodeStatus_of_event hstart fun _ => rfl) rfl rfl rfl rfl
  have hlost' : statusEvent t.cfg lost = .arbLost := by rw [ht.cfg_eq]; exact hlost
  obtain ⟨u, hu⟩ :=
    undisturbed_of_event ht.inputs_eq (decodeStatus_of_event hlost' fun _ => rfl) rfl rfl rfl rfl
  exact ⟨u, ht.trans hu⟩

end

/-- No cap and no counter: each round starts from the flag and the descriptor of the first. -/
theorem undisturbed_arbitration_rounds {n : Nat} {s : State} {start lost : Byte}
    (hstart : statusEvent s.cfg start = .start) (hlost : statusEvent s.cfg lost = .arbLost)
    (hx : s.inputs = (List.replicate n [plainEvent start, plainEvent lost]).flatten) :
    ∃ t, Undisturbed (2 * n) s t [] := by
  induction n generalizing s with
  | zero => exact ⟨s, rfl, rfl, rfl, rfl, hx, rfl⟩
  | succ n ih =>
    obtain ⟨t, ht⟩ := undisturbed_arbitration_round hstart hlost hx
    obtain ⟨u, hu⟩ := ih (by rw [ht.cfg_eq]; exact hstart) (by rw [ht.cfg_eq]; exact hlost) ht.inputs_eq
    rw [Nat.mul_succ, Nat.add_comm]
    exact ⟨u, ht.trans hu⟩

/-- Settles O48, by induction on the number of rounds in `undisturbed_arbitration_rounds`. -/
theorem arbitrationStarvationNeverEnds : Obligations.ArbitrationStarvationNeverEnds := by
  intro n s start lost hstart hlost hx
  obtain ⟨t, ht⟩ := undisturbed_arbitration_rounds hstart hlost hx
  exact ⟨t, ht.steps_eq, ht.busy_eq, ht.desc_eq, ht.inputs_eq, ht.notices_eq⟩

/-! ### The requests of a handler (R267, R275, U12) -/

section
variable {i : Instr} {r : SlaveRow} {s : State}

/-- With a transaction in flight the requests are answered BUSY, after the call and the byte it queues and before the
command. -/
theorem exec_slaveRow_of_busy (hr : slaveRow i = some r) (hv : handlerValid r.sel s = true) (hbusy : s.busy = true) :
    ∃ (t : State) (pre : List Output) (c : Cmd), exec i s = .next t ∧
      t.outs = s.outs ++ pre ++ (s.env.reply.requests.map fun _ => .response .busy) ++ [.busCmd c] ∧
      (∀ code, Output.response code ∉ pre) ∧ t.desc = s.desc ∧ t.busy = true ∧ t.mem = s.mem := by
  have hreq : s.env.reply.requests.map (requestCheck s.busy s.cfg.bufCap) =
      (s.env.reply.requests.map fun _ => ResCode.busy).map some := by
    rw [hbusy, map_requestCheck_busy]
  refine ⟨_, .call r.sel (handlerRef r.sel s) r.action :: s.env.reply.out.toList.map .busOut,
    r.cmd s.env.reply.accept, exec_slaveRow_of_refused hr hv hreq, ?_, by simp, rfl, hbusy, rfl⟩
  simp only [List.map_map, List.append_assoc, List.cons_append, List.nil_append]
  rfl

/-- A valid request passes the check of R120 unless it reads from the general call address. -/
theorem requestCheck_of_valid {cap : Nat} {q : RawReq} (hpos : 1 ≤ q.len) (hcap : q.len ≤ cap)
    (haddr : q.dir = .write ∨ q.addr ≠ 0) : requestCheck false cap q = none := by
  rw [requestCheck, acceptCheck_of_valid rfl hpos hcap, if_neg]
  rintro ⟨hdir, hzero⟩
  rcases haddr with hwrite | hne
  · simp [hwrite] at hdir
  · exact hne hzero

/-- One request that would be accepted is enough for the refusal. -/
theorem exec_slaveRow_of_accepted (hr : slaveRow i = some r) (hv : handlerValid r.sel s = true) {q : RawReq}
    (hmem : q ∈ s.env.reply.requests) (hq : requestCheck s.busy s.cfg.bufCap q = none) :
    exec i s = .refused .handlerRequestAccepted := by
  have hstart : handlerStartsRequest r.sel s = true := by
    rw [handlerStartsRequest, hv, Bool.true_and, List.any_eq_true]
    exact ⟨q, hmem, by rw [hq]; rfl⟩
  rw [exec_slaveRow hr, slaveRule, if_pos hstart]

end

/-- Settles O59: all nine rows are rows of `slaveRow`, and `busy` decides how their handler's requests end. -/
theorem handlerRequestsAreBusyOrRefused : Obligations.HandlerRequestsAreBusyOrRefused := by
  intro row hrow s hv
  obtain ⟨r, htable, hsel⟩ : ∃ r, slaveRow row.1 = some r ∧ r.sel = row.2 := by
    fin_cases hrow <;> exact ⟨_, rfl, rfl⟩
  rw [← hsel] at hv
  refine ⟨exec_slaveRow_of_busy htable hv, fun hidle ⟨q, hmem, hpos, hcap, haddr⟩ => ?_⟩
  have hq : requestCheck s.busy s.cfg.bufCap q = none := by
    rw [hidle]
    exact requestCheck_of_valid hpos hcap haddr
  exact exec_slaveRow_of_accepted htable hv hmem hq

end Sys2Proof.Machine
end
